-- ==== Sys2Proof/Word.lean ====
section
/-! DEFINITION. The word types of the CHIP-8 core (spec 00_scope.md R6, R9): every register and memory value is
an unsigned integer of its stated width, so the bit vectors of the manual are the only bit vectors here. -/

namespace Sys2Proof

/-- An 8-bit value: a general register, a timer, a byte of memory (R6, R21, R28, R29, R32). -/
abbrev Byte := BitVec 8

/-- A 16-bit value: I, pc, a return address, an opcode (R6, R24, R25, R26, R70). -/
abbrev Word := BitVec 16

/-- The name of a general register V0..VF, or of a key 0..F (R21, R33). -/
abbrev RegIx := Fin 16

end Sys2Proof
end

