-- ==== Sys2Proof/Config.lean ====
section
/-! DEFINITION. What the spec leaves to the implementation: the parameters of 00_scope.md R7 ("The model takes each
as an argument"), and the one free value, the random draw of 10_state.md R34. The defaults of R7 stand in
Sys2Proof/Machine/Defaults.lean. -/

namespace Sys2Proof

/-- DRAW_EDGE (R7, R182, R183, D12): what happens to a sprite pixel beyond the right or bottom edge. -/
inductive DrawEdge where
  /-- R182: the pixel is dropped. -/
  | clip
  /-- R183: the pixel wraps modulo the width and height. -/
  | wrap
deriving DecidableEq, Repr

/-- CXNN_MODE (R7, R141, D15): whether family C is the random instruction or an unknown opcode. -/
inductive CxnnMode where
  /-- R141: V[X] takes rnd & NN. -/
  | random
  /-- R79: every word 0xCXNN is an unknown opcode. -/
  | noop
deriving DecidableEq, Repr

/-- VF_DEST (R7, R142, D14): the order in which a flag-writing instruction writes VF and VX. -/
inductive VfDest where
  /-- VF first, then VX. -/
  | result
  /-- VX first, then VF. -/
  | flag
  /-- VF first, then VX from operands read again. -/
  | reread
deriving DecidableEq, Repr

/-- KEY_SCAN_ORDER (R7, R202, D16): which of several pressed keys FX0A stores. -/
inductive KeyScanOrder where
  | lowest
  | highest
deriving DecidableEq, Repr

/-- The implementation parameters of R7. They are fixed for a machine: no step changes them. -/
structure Config where
  /-- FONT_BASE: an address with FONT_BASE + 80 ≤ 0x200, so at most 432 (D4). -/
  fontBase : Fin 433
  /-- FONT_DATA: the 80 bytes seeded at FONT_BASE (D5). -/
  fontData : Vector Byte 80
  /-- DRAW_EDGE (D12). -/
  drawEdge : DrawEdge
  /-- CXNN_MODE (D15). -/
  cxnnMode : CxnnMode
  /-- VF_DEST (D14). -/
  vfDest : VfDest
  /-- SUBN_EQ_VF: the flag of 8XY7 when VX = VY, true for 1 (D32). -/
  subnEqVf : Bool
  /-- KEY_SCAN_ORDER (D16). -/
  keyScanOrder : KeyScanOrder
deriving DecidableEq, Repr

/-- The free random draw of tick number n (R34: "drawn afresh for every tick; the model places no law on it").
It has no body, so nothing can be proved of its value (assumption log entry 1). -/
opaque Config.freeDraw : Nat → Byte

end Sys2Proof
end

