-- ==== Sys2Proof/Machine/Defaults.lean ====
section
/-! DEFINITION. The defaults of the implementation parameters (00_scope.md R7, 42_memory_index.md R166,
92_eei_decisions.md D4, D5, D12, D14, D15, D16, D32). -/

namespace Sys2Proof.Machine

/-- Glyphs 0 to 3 of R166, five bytes each, top row first. -/
def glyphs0to3 : Vector Byte 20 :=
  #v[0xF0, 0x90, 0x90, 0x90, 0xF0,   0x20, 0x60, 0x20, 0x20, 0x70,
     0xF0, 0x10, 0xF0, 0x80, 0xF0,   0xF0, 0x10, 0xF0, 0x10, 0xF0]

/-- Glyphs 4 to 7 of R166. -/
def glyphs4to7 : Vector Byte 20 :=
  #v[0x90, 0x90, 0xF0, 0x10, 0x10,   0xF0, 0x80, 0xF0, 0x10, 0xF0,
     0xF0, 0x80, 0xF0, 0x90, 0xF0,   0xF0, 0x10, 0x20, 0x40, 0x40]

/-- Glyphs 8 to B of R166. -/
def glyphs8toB : Vector Byte 20 :=
  #v[0xF0, 0x90, 0xF0, 0x90, 0xF0,   0xF0, 0x90, 0xF0, 0x10, 0xF0,
     0xF0, 0x90, 0xF0, 0x90, 0x90,   0xE0, 0x90, 0xE0, 0x90, 0xE0]

/-- Glyphs C to F of R166. -/
def glyphsCtoF : Vector Byte 20 :=
  #v[0xF0, 0x80, 0x80, 0x80, 0xF0,   0xE0, 0x90, 0x90, 0x90, 0xE0,
     0xF0, 0x80, 0xF0, 0x80, 0xF0,   0xF0, 0x80, 0xF0, 0x80, 0x80]

/-- FONT_DATA of R166. -/
def defaultFont : Vector Byte 80 := glyphs0to3 ++ glyphs4to7 ++ glyphs8toB ++ glyphsCtoF

/-- The default column of R7. Assumption log entries 3 to 9. -/
def defaultConfig : Config where
  fontBase := 0x000
  fontData := defaultFont
  drawEdge := .clip
  cxnnMode := .random
  vfDest := .result
  subnEqVf := false
  keyScanOrder := .lowest

end Sys2Proof.Machine
end

