-- ==== Sys2Proof/Syntax.lean ====
section
/-! DEFINITION. The instructions of spec/opcode_table.json, one constructor per row: the 34 instruction kinds of
30_encoding.md R82 and the fallback row for an unknown opcode (R79). Operands are the fields of R71: X and Y as
register names, N, NN and NNN as the immediates they are. Bits that R72 marks as ignored are no operands. -/

namespace Sys2Proof

inductive Instr where
  /-- 00E0, R100. -/
  | cls
  /-- 00EE, R101. -/
  | ret
  /-- 1NNN, R102. -/
  | jp (nnn : BitVec 12)
  /-- 2NNN, R103. -/
  | call (nnn : BitVec 12)
  /-- 3XNN, R104. -/
  | seImm (x : RegIx) (nn : Byte)
  /-- 4XNN, R105. -/
  | sneImm (x : RegIx) (nn : Byte)
  /-- 5XY0, R106. -/
  | seReg (x y : RegIx)
  /-- 6XNN, R130. -/
  | ldImm (x : RegIx) (nn : Byte)
  /-- 7XNN, R131. -/
  | addImm (x : RegIx) (nn : Byte)
  /-- 8XY0, R132. -/
  | ldReg (x y : RegIx)
  /-- 8XY1, R133. -/
  | orReg (x y : RegIx)
  /-- 8XY2, R134. -/
  | andReg (x y : RegIx)
  /-- 8XY3, R135. -/
  | xorReg (x y : RegIx)
  /-- 8XY4, R136. -/
  | addReg (x y : RegIx)
  /-- 8XY5, R137. -/
  | subReg (x y : RegIx)
  /-- 8XY6, R139 (Y is ignored). -/
  | shr (x : RegIx)
  /-- 8XY7, R138. -/
  | subnReg (x y : RegIx)
  /-- 8XYE, R140 (Y is ignored). -/
  | shl (x : RegIx)
  /-- 9XY0, R107. -/
  | sneReg (x y : RegIx)
  /-- ANNN, R160. -/
  | ldI (nnn : BitVec 12)
  /-- BNNN, R108. -/
  | jpV0 (nnn : BitVec 12)
  /-- CXNN, R141. -/
  | rnd (x : RegIx) (nn : Byte)
  /-- DXYN, R180. -/
  | drw (x y : RegIx) (n : BitVec 4)
  /-- EX9E, R200. -/
  | skp (x : RegIx)
  /-- EXA1, R201. -/
  | sknp (x : RegIx)
  /-- FX07, R220. -/
  | ldVxDt (x : RegIx)
  /-- FX0A, R202. -/
  | ldVxK (x : RegIx)
  /-- FX15, R221. -/
  | ldDtVx (x : RegIx)
  /-- FX18, R222. -/
  | ldStVx (x : RegIx)
  /-- FX1E, R161. -/
  | addI (x : RegIx)
  /-- FX29, R162. -/
  | ldF (x : RegIx)
  /-- FX33, R163. -/
  | ldB (x : RegIx)
  /-- FX55, R164. -/
  | storeRegs (x : RegIx)
  /-- FX65, R165. -/
  | loadRegs (x : RegIx)
  /-- Any other word, R79: a no-op that keeps the word it was decoded from. -/
  | unknown (w : Word)
deriving DecidableEq, Repr

end Sys2Proof
end

