-- ==== Sys2Proof/Decode.lean ====
section
/-! DEFINITION. Decoding and encoding (30_encoding.md R70 to R82): the fields of an opcode, the nested match that
turns any 16-bit word into an instruction, the decoder of a byte sequence, the encoder, and the mask and match rows of
the opcode map. -/

namespace Sys2Proof

/-! ### The fields of R71 -/

/-- F: op[15:12]. -/
def family (op : Word) : BitVec 4 := op.extractLsb' 12 4
/-- X: op[11:8], a register name. -/
def fieldX (op : Word) : RegIx := (op.extractLsb' 8 4).toFin
/-- Y: op[7:4], a register name. -/
def fieldY (op : Word) : RegIx := (op.extractLsb' 4 4).toFin
/-- N: op[3:0]. -/
def fieldN (op : Word) : BitVec 4 := op.extractLsb' 0 4
/-- NN: op[7:0]. -/
def fieldNN (op : Word) : Byte := op.extractLsb' 0 8
/-- NNN: op[11:0]. -/
def fieldNNN (op : Word) : BitVec 12 := op.extractLsb' 0 12

/-! ### Decoding -/

/-- Family 0 dispatches on the low nibble only (R74). -/
def decodeFamily0 (op : Word) : Instr :=
  match fieldN op with
  | 0x0#4 => .cls
  | 0xE#4 => .ret
  | _ => .unknown op

/-- Family 8 dispatches on the low nibble (R75). -/
def decodeFamily8 (op : Word) : Instr :=
  match fieldN op with
  | 0x0#4 => .ldReg (fieldX op) (fieldY op)
  | 0x1#4 => .orReg (fieldX op) (fieldY op)
  | 0x2#4 => .andReg (fieldX op) (fieldY op)
  | 0x3#4 => .xorReg (fieldX op) (fieldY op)
  | 0x4#4 => .addReg (fieldX op) (fieldY op)
  | 0x5#4 => .subReg (fieldX op) (fieldY op)
  | 0x6#4 => .shr (fieldX op)
  | 0x7#4 => .subnReg (fieldX op) (fieldY op)
  | 0xE#4 => .shl (fieldX op)
  | _ => .unknown op

/-- Family C is RND or unknown, as CXNN_MODE says (R82, R141). -/
def decodeFamilyC (cfg : Config) (op : Word) : Instr :=
  match cfg.cxnnMode with
  | .random => .rnd (fieldX op) (fieldNN op)
  | .noop => .unknown op

/-- Family E dispatches on the low nibble only (R76). -/
def decodeFamilyE (op : Word) : Instr :=
  match fieldN op with
  | 0xE#4 => .skp (fieldX op)
  | 0x1#4 => .sknp (fieldX op)
  | _ => .unknown op

/-- Family F dispatches on the low byte (R77). -/
def decodeFamilyF (op : Word) : Instr :=
  match fieldNN op with
  | 0x07#8 => .ldVxDt (fieldX op)
  | 0x0A#8 => .ldVxK (fieldX op)
  | 0x15#8 => .ldDtVx (fieldX op)
  | 0x18#8 => .ldStVx (fieldX op)
  | 0x1E#8 => .addI (fieldX op)
  | 0x29#8 => .ldF (fieldX op)
  | 0x33#8 => .ldB (fieldX op)
  | 0x55#8 => .storeRegs (fieldX op)
  | 0x65#8 => .loadRegs (fieldX op)
  | _ => .unknown op

/-- R82: a total function of the word (and of CXNN_MODE), by the nested match of R73 to R79. The last arm is family F. -/
def decode (cfg : Config) (op : Word) : Instr :=
  match family op with
  | 0x0#4 => decodeFamily0 op
  | 0x1#4 => .jp (fieldNNN op)
  | 0x2#4 => .call (fieldNNN op)
  | 0x3#4 => .seImm (fieldX op) (fieldNN op)
  | 0x4#4 => .sneImm (fieldX op) (fieldNN op)
  | 0x5#4 => .seReg (fieldX op) (fieldY op)
  | 0x6#4 => .ldImm (fieldX op) (fieldNN op)
  | 0x7#4 => .addImm (fieldX op) (fieldNN op)
  | 0x8#4 => decodeFamily8 op
  | 0x9#4 => .sneReg (fieldX op) (fieldY op)
  | 0xA#4 => .ldI (fieldNNN op)
  | 0xB#4 => .jpV0 (fieldNNN op)
  | 0xC#4 => decodeFamilyC cfg op
  | 0xD#4 => .drw (fieldX op) (fieldY op) (fieldN op)
  | 0xE#4 => decodeFamilyE op
  | _ => decodeFamilyF op

/-- The one way a byte sequence fails to hold an instruction: no word is refused (R80), but an opcode is two bytes
(R70). -/
inductive DecodeError where
  /-- Fewer than two bytes are left. -/
  | truncated
deriving DecidableEq, Repr

/-- The opcode of two consecutive bytes, big-endian (20_memory.md R52). -/
def wordOfBytes (hi lo : Byte) : Word := hi ++ lo

/-- The byte at the lower address of a word: bits 15:8 (R52). -/
def highByte (w : Word) : Byte := w.extractLsb' 8 8
/-- The byte at the higher address of a word: bits 7:0 (R52). -/
def lowByte (w : Word) : Byte := w.extractLsb' 0 8

/-- The instruction at the head of a byte sequence, and the bytes after it. -/
def decodeBytes (cfg : Config) : List Byte → Except DecodeError (Instr × List Byte)
  | hi :: lo :: rest => .ok (decode cfg (wordOfBytes hi lo), rest)
  | _ => .error .truncated

/-! ### Encoding -/

/-- Format A12 of R72: family, NNN. -/
def wordA12 (f : BitVec 4) (nnn : BitVec 12) : Word := f ++ nnn
/-- Formats XNN and XSS of R72: family, X, NN. -/
def wordXNN (f : BitVec 4) (x : RegIx) (nn : Byte) : Word := f ++ BitVec.ofFin (w := 4) x ++ nn
/-- Formats XY, XYS and XYN of R72: family, X, Y, N. -/
def wordXYN (f : BitVec 4) (x y : RegIx) (n : BitVec 4) : Word :=
  f ++ BitVec.ofFin (w := 4) x ++ BitVec.ofFin (w := 4) y ++ n

/-- The word of an instruction (the patterns of the opcode map of 30_encoding.md §4). Bits that R72 marks as ignored
take the value of the conventional spelling: 00E0, 00EE, 5XY0, 9XY0, EX9E, EXA1, and Y = 0 in 8XY6 and 8XYE
(assumption log entry 10). -/
def encode : Instr → Word
  | .cls => 0x00E0
  | .ret => 0x00EE
  | .jp nnn => wordA12 0x1 nnn
  | .call nnn => wordA12 0x2 nnn
  | .seImm x nn => wordXNN 0x3 x nn
  | .sneImm x nn => wordXNN 0x4 x nn
  | .seReg x y => wordXYN 0x5 x y 0x0
  | .ldImm x nn => wordXNN 0x6 x nn
  | .addImm x nn => wordXNN 0x7 x nn
  | .ldReg x y => wordXYN 0x8 x y 0x0
  | .orReg x y => wordXYN 0x8 x y 0x1
  | .andReg x y => wordXYN 0x8 x y 0x2
  | .xorReg x y => wordXYN 0x8 x y 0x3
  | .addReg x y => wordXYN 0x8 x y 0x4
  | .subReg x y => wordXYN 0x8 x y 0x5
  | .shr x => wordXYN 0x8 x 0 0x6
  | .subnReg x y => wordXYN 0x8 x y 0x7
  | .shl x => wordXYN 0x8 x 0 0xE
  | .sneReg x y => wordXYN 0x9 x y 0x0
  | .ldI nnn => wordA12 0xA nnn
  | .jpV0 nnn => wordA12 0xB nnn
  | .rnd x nn => wordXNN 0xC x nn
  | .drw x y n => wordXYN 0xD x y n
  | .skp x => wordXNN 0xE x 0x9E
  | .sknp x => wordXNN 0xE x 0xA1
  | .ldVxDt x => wordXNN 0xF x 0x07
  | .ldVxK x => wordXNN 0xF x 0x0A
  | .ldDtVx x => wordXNN 0xF x 0x15
  | .ldStVx x => wordXNN 0xF x 0x18
  | .addI x => wordXNN 0xF x 0x1E
  | .ldF x => wordXNN 0xF x 0x29
  | .ldB x => wordXNN 0xF x 0x33
  | .storeRegs x => wordXNN 0xF x 0x55
  | .loadRegs x => wordXNN 0xF x 0x65
  | .unknown w => w

/-- The two bytes of an instruction as memory holds them (R52). -/
def encodeBytes (i : Instr) : List Byte := [highByte (encode i), lowByte (encode i)]

/-! ### The opcode map -/

/-- A row of the opcode map: a word w is of this kind when w & mask = value. -/
structure OpcodeRow where
  mnemonic : String
  mask : Word
  value : Word
deriving DecidableEq, Repr

/-- The row of spec/opcode_table.json an instruction stands for. -/
def Instr.row : Instr → OpcodeRow
  | .cls => ⟨"CLS", 0xF00F, 0x0000⟩
  | .ret => ⟨"RET", 0xF00F, 0x000E⟩
  | .jp _ => ⟨"JP_NNN", 0xF000, 0x1000⟩
  | .call _ => ⟨"CALL_NNN", 0xF000, 0x2000⟩
  | .seImm _ _ => ⟨"SE_VX__NN", 0xF000, 0x3000⟩
  | .sneImm _ _ => ⟨"SNE_VX__NN", 0xF000, 0x4000⟩
  | .seReg _ _ => ⟨"SE_VX__VY", 0xF000, 0x5000⟩
  | .ldImm _ _ => ⟨"LD_VX__NN", 0xF000, 0x6000⟩
  | .addImm _ _ => ⟨"ADD_VX__NN", 0xF000, 0x7000⟩
  | .ldReg _ _ => ⟨"LD_VX__VY", 0xF00F, 0x8000⟩
  | .orReg _ _ => ⟨"OR_VX__VY", 0xF00F, 0x8001⟩
  | .andReg _ _ => ⟨"AND_VX__VY", 0xF00F, 0x8002⟩
  | .xorReg _ _ => ⟨"XOR_VX__VY", 0xF00F, 0x8003⟩
  | .addReg _ _ => ⟨"ADD_VX__VY", 0xF00F, 0x8004⟩
  | .subReg _ _ => ⟨"SUB_VX__VY", 0xF00F, 0x8005⟩
  | .shr _ => ⟨"SHR_VX", 0xF00F, 0x8006⟩
  | .subnReg _ _ => ⟨"SUBN_VX__VY", 0xF00F, 0x8007⟩
  | .shl _ => ⟨"SHL_VX", 0xF00F, 0x800E⟩
  | .sneReg _ _ => ⟨"SNE_VX__VY", 0xF000, 0x9000⟩
  | .ldI _ => ⟨"LD_I__NNN", 0xF000, 0xA000⟩
  | .jpV0 _ => ⟨"JP_V0__NNN", 0xF000, 0xB000⟩
  | .rnd _ _ => ⟨"RND_VX__NN", 0xF000, 0xC000⟩
  | .drw _ _ _ => ⟨"DRW_VX__VY__N", 0xF000, 0xD000⟩
  | .skp _ => ⟨"SKP_VX", 0xF00F, 0xE00E⟩
  | .sknp _ => ⟨"SKNP_VX", 0xF00F, 0xE001⟩
  | .ldVxDt _ => ⟨"LD_VX__DT", 0xF0FF, 0xF007⟩
  | .ldVxK _ => ⟨"LD_VX__K", 0xF0FF, 0xF00A⟩
  | .ldDtVx _ => ⟨"LD_DT__VX", 0xF0FF, 0xF015⟩
  | .ldStVx _ => ⟨"LD_ST__VX", 0xF0FF, 0xF018⟩
  | .addI _ => ⟨"ADD_I__VX", 0xF0FF, 0xF01E⟩
  | .ldF _ => ⟨"LD_F__VX", 0xF0FF, 0xF029⟩
  | .ldB _ => ⟨"LD_B__VX", 0xF0FF, 0xF033⟩
  | .storeRegs _ => ⟨"LD__I___VX", 0xF0FF, 0xF055⟩
  | .loadRegs _ => ⟨"LD_VX___I", 0xF0FF, 0xF065⟩
  | .unknown _ => ⟨"unknown_opcode__no-op", 0x0000, 0x0000⟩

/-- The 34 rows of the opcode map of 30_encoding.md §4, without the fallback. -/
def opcodeMap : List OpcodeRow :=
  [Instr.cls.row, Instr.ret.row, (Instr.jp 0).row, (Instr.call 0).row, (Instr.seImm 0 0).row, (Instr.sneImm 0 0).row,
   (Instr.seReg 0 0).row, (Instr.ldImm 0 0).row, (Instr.addImm 0 0).row] ++
  [(Instr.ldReg 0 0).row, (Instr.orReg 0 0).row, (Instr.andReg 0 0).row, (Instr.xorReg 0 0).row, (Instr.addReg 0 0).row,
   (Instr.subReg 0 0).row, (Instr.shr 0).row, (Instr.subnReg 0 0).row, (Instr.shl 0).row] ++
  [(Instr.sneReg 0 0).row, (Instr.ldI 0).row, (Instr.jpV0 0).row, (Instr.rnd 0 0).row, (Instr.drw 0 0 0).row,
   (Instr.skp 0).row, (Instr.sknp 0).row] ++
  [(Instr.ldVxDt 0).row, (Instr.ldVxK 0).row, (Instr.ldDtVx 0).row, (Instr.ldStVx 0).row, (Instr.addI 0).row,
   (Instr.ldF 0).row, (Instr.ldB 0).row, (Instr.storeRegs 0).row, (Instr.loadRegs 0).row]

/-- A word is of a row's kind. -/
def OpcodeRow.fits (r : OpcodeRow) (w : Word) : Bool := w &&& r.mask == r.value

/-! ### The host's view -/

/-- The word the host numbers `w` with `nbits` bits; bits above `nbits` are zero. -/
def tableWord (nbits w : Nat) : Word := BitVec.ofNat 16 (w % 2 ^ nbits)

/-- The bytes of that word as memory holds them. -/
def tableBytes (nbits w : Nat) : List Byte := [highByte (tableWord nbits w), lowByte (tableWord nbits w)]

/-- The instruction the decoder reads from the host's word, under the default parameters. -/
def decodeTableWord (nbits w : Nat) : Option Instr :=
  match decodeBytes Machine.defaultConfig (tableBytes nbits w) with
  | .ok (i, _) => some i
  | .error _ => none

end Sys2Proof
end

