-- ==== Sys2Proof/Machine/State.lean ====
section
/-! DEFINITION. The state of the core as plain data (10_state.md R20 to R36), the reasons a step can stop, and the
state after reset (70_reset_and_hazards.md R270). -/

namespace Sys2Proof.Machine

/-- FAULT.code with the names of 60_exceptions.md R241; the numbers are `FaultCode.toByte` in Ops.lean. Legal values
are exactly these six (R30). -/
inductive FaultCode where
  /-- 0: no fault. -/
  | none
  /-- 1: 2NNN with SP = 16. -/
  | stackOverflow
  /-- 2: 00EE with SP = 0. -/
  | stackUnderflow
  /-- 3: DXYN, FX33, FX55 or FX65 at an address above 0xFFF. -/
  | memOutOfRange
  /-- 4: EX9E or EXA1 with VX above 0x0F. -/
  | keyOutOfRange
  /-- 5: the fetch with pc above 0xFFE. -/
  | fetchOutOfRange
deriving DecidableEq, Repr

/-- The FAULT register (R30). -/
structure FaultReg where
  code : FaultCode
  /-- The pc at the start of the faulting tick. -/
  pc : Word
  /-- The code-specific value of R241. -/
  info : Word
deriving DecidableEq, Repr

/-- The framebuffer: 64 columns of 32 one-bit pixels, so `fb[x][y]` is the spec's fb[x][y] (R32). -/
abbrev Framebuffer := Vector (Vector Bool 32) 64

/-- The memory's contents where they differ from its contents at reset: (address, byte) pairs in the canonical form
of `Memory.wf` (Ops.lean). -/
abbrev Memory := List Host.Cell

/-- The state of the core. `v` to `fault` are the tuple of R20; `keys` is the keypad input as the host last wrote it
(R33, R248); `rndIn` and `draws` give the random input of R34; `loaded` and `ticked` are the host interface's
bookkeeping (R273); `cfg` is the parameters of R7, which no step changes. -/
structure State where
  /-- V0..VF (R21). -/
  v : Vector Byte 16
  /-- The index register I (R24). -/
  i : Word
  /-- The program counter; between ticks, the address of the next opcode (R25). -/
  pc : Word
  /-- The return-address slots (R26). -/
  stack : Vector Word 16
  /-- SP, 0..16: the number of occupied slots (R27). -/
  sp : Fin 17
  /-- delay_timer (R28). -/
  dt : Byte
  /-- sound_timer (R29). -/
  st : Byte
  /-- The 4096 bytes of memory (R32, R50). -/
  mem : Memory
  /-- The 64 × 32 framebuffer (R32). -/
  fb : Framebuffer
  /-- FAULT (R30). -/
  fault : FaultReg
  /-- The keypad input: bit k is 1 when key k is pressed (R33). -/
  keys : BitVec 16
  /-- The draw the host hands to the next tick (R248), or none: then that tick's draw is free. -/
  rndIn : Option Byte
  /-- How many draws have been used: the argument of the free value `Config.freeDraw`. The model's own field. -/
  draws : Nat
  /-- A program has been loaded since reset (R273). -/
  loaded : Bool
  /-- A tick has run since reset (R273's second condition). -/
  ticked : Bool
  /-- The implementation parameters (R7). The model's own field. -/
  cfg : Config
deriving DecidableEq, Repr

/-- The reasons a step stops with a fault: there are none. Every fault the spec names is taken as R242 describes (a
next state with FAULT written), and a tick of a halted core changes nothing (R243). -/
inductive Fault
deriving DecidableEq, Repr

/-- The reasons a step is refused. -/
inductive Refusal where
  /-- Raised by an arm of `exec` whose instruction has no meaning yet; no arm does. Safe: the model stops. -/
  | notModelled (mnemonic : String)
deriving DecidableEq, Repr

/-- Reset under given parameters: every piece of state at the value of R36, R270. Memory lists nothing, since an
unlisted address reads as its contents at reset (`resetByte`, Ops.lean). -/
def State.resetWith (cfg : Config) : State where
  v := Vector.replicate 16 0x00
  i := 0x0000
  pc := 0x0200
  stack := Vector.replicate 16 0x0000
  sp := 0
  dt := 0x00
  st := 0x00
  mem := []
  fb := Vector.replicate 64 (Vector.replicate 32 false)
  fault := ⟨.none, 0x0000, 0x0000⟩
  keys := 0x0000
  rndIn := none
  draws := 0
  loaded := false
  ticked := false
  cfg := cfg

/-- The machine right after reset, with the default parameters of R7. -/
def State.reset : State := State.resetWith defaultConfig

end Sys2Proof.Machine
end

