-- ==== Sys2Proof/Machine/Ops.lean ====
section
/-! DEFINITION. The shared operations: memory and its canonical form (20_memory.md), raising and taking a fault
(60_exceptions.md R242), running a handler after the pc advance, the fetch and the end of a tick (30_encoding.md R81,
45_timer.md R223). The core has no return from a fault (R244), so none stands here. -/

namespace Sys2Proof.Machine

/-! ### Memory -/

/-- MEM_SIZE (R6). -/
def memSize : Nat := 4096

/-- What an address reads as before anything is written there: FONT_DATA at FONT_BASE, zero elsewhere (R36, R270). -/
def resetByte (cfg : Config) (a : Nat) : Byte :=
  if cfg.fontBase.val ≤ a then cfg.fontData.toList.getD (a - cfg.fontBase.val) 0x00 else 0x00

/-- The byte listed for an address, if one is. -/
def Memory.find : Memory → Nat → Option Byte
  | [], _ => none
  | (b, w) :: m, a => if a = b then some w else Memory.find m a

/-- The byte at an address. -/
def Memory.read (cfg : Config) (m : Memory) (a : Nat) : Byte := (Memory.find m a).getD (resetByte cfg a)

/-- Lists `v` at `a`, or lists nothing there when `a` reads as `v` unlisted: keeps the canonical form. -/
def Memory.write (cfg : Config) (a : Nat) (v : Byte) : Memory → Memory
  | [] => if v = resetByte cfg a then [] else [(a, v)]
  | (b, w) :: m =>
    if a < b then (if v = resetByte cfg a then (b, w) :: m else (a, v) :: (b, w) :: m)
    else if a = b then (if v = resetByte cfg a then m else (a, v) :: m)
    else (b, w) :: Memory.write cfg a v m

/-- The canonical form above a lower bound: addresses from `lo` on, strictly rising, inside memory, and no entry equal
to what its address reads as unlisted. -/
def Memory.wfFrom (cfg : Config) : Nat → Memory → Bool
  | _, [] => true
  | lo, (a, v) :: m => decide (lo ≤ a) && decide (a < memSize) && decide (v ≠ resetByte cfg a) && Memory.wfFrom cfg (a + 1) m

/-- The canonical form: equal memories are equal lists. -/
def Memory.wf (cfg : Config) (m : Memory) : Bool := Memory.wfFrom cfg 0 m

/-- The state's memory is in the canonical form for the state's parameters. -/
abbrev State.memWf (s : State) : Prop := Memory.wf s.cfg s.mem = true

/-- The byte of the state's memory at an address: the read-only view of R251, with no range check. -/
def State.byteAt (s : State) (a : Nat) : Byte := Memory.read s.cfg s.mem a

/-- The state with one byte of memory replaced, with no range check. -/
def State.setByte (s : State) (a : Nat) (b : Byte) : State := { s with mem := Memory.write s.cfg a b s.mem }

/-! ### Faults -/

/-- FAULT.code as the host reads it (R241). -/
def FaultCode.toByte : FaultCode → Byte
  | .none => 0
  | .stackOverflow => 1
  | .stackUnderflow => 2
  | .memOutOfRange => 3
  | .keyOutOfRange => 4
  | .fetchOutOfRange => 5

/-- What `raise F(info)` carries (R10, R242). -/
structure Raise where
  code : FaultCode
  info : Word
deriving DecidableEq, Repr

/-- A handler: its effect on the state after the pc advance, or the fault it raises. -/
abbrev Handler := State → Except Raise State

/-- Taking a fault (R242): the state at the start of the tick is restored and FAULT is written. -/
def raiseFault (s0 : State) (r : Raise) : State := { s0 with fault := ⟨r.code, s0.pc, r.info⟩ }

/-- The core is halted while FAULT.code is not 0 (R243). -/
def State.halted (s : State) : Bool := s.fault.code != .none

/-- `pc <- trunc16(pc + 2)` before the handler (R81). -/
def State.advance (s : State) : State := { s with pc := s.pc + 2 }

/-- Runs a handler on the advanced state of the tick that started in `s0`; a raise restores `s0` (R81, R242). -/
def runHandler (h : Handler) (s0 : State) : Host.Outcome State Fault Refusal :=
  match h s0.advance with
  | .ok s => .next s
  | .error r => .next (raiseFault s0 r)

/-- Runs a handler that raises nothing. -/
def complete (f : State → State) (s0 : State) : Host.Outcome State Fault Refusal := .next (f s0.advance)

/-! ### Checked memory accesses -/

/-- MemRead(addr, 1) of R50; the address is a mathematical integer. -/
def memRead (s : State) (a : Nat) : Except Raise Byte :=
  if a > 0xFFF then .error ⟨.memOutOfRange, BitVec.ofNat 16 a⟩ else .ok (s.byteAt a)

/-- MemWrite(addr, 1, v) of R50. -/
def memWrite (s : State) (a : Nat) (b : Byte) : Except Raise State :=
  if a > 0xFFF then .error ⟨.memOutOfRange, BitVec.ofNat 16 a⟩ else .ok (s.setByte a b)

/-- The `n` bytes from address `a` on, read in ascending order; the first address out of range raises (R245). -/
def readBlock (s : State) (a : Nat) : Nat → Except Raise (List Byte)
  | 0 => .ok []
  | n + 1 =>
    match memRead s a with
    | .error r => .error r
    | .ok b =>
      match readBlock s (a + 1) n with
      | .error r => .error r
      | .ok bs => .ok (b :: bs)

/-- Writes bytes from address `a` on in ascending order; the first address out of range raises (R245). -/
def writeBlock (s : State) (a : Nat) : List Byte → Except Raise State
  | [] => .ok s
  | b :: bs =>
    match memWrite s a b with
    | .error r => .error r
    | .ok s' => writeBlock s' (a + 1) bs

/-! ### The tick around the handler -/

/-- The fetch of R81: big-endian (R52), with its own range check. -/
def fetch (s : State) : Except Raise Word :=
  if s.pc.toNat > 0x0FFE then .error ⟨.fetchOutOfRange, s.pc⟩
  else .ok (wordOfBytes (s.byteAt s.pc.toNat) (s.byteAt (s.pc.toNat + 1)))

/-- A timer's countdown: by 1 while nonzero (R223). -/
def countdown (t : Byte) : Byte := if t ≠ 0 then t - 1 else t

/-- timer_countdown() of R223. -/
def timerCountdown (s : State) : State := { s with dt := countdown s.dt, st := countdown s.st }

/-- The tick has used its random draw (R34: "drawn afresh for every tick") and a tick has run (R273). -/
def useInputs (s : State) : State := { s with rndIn := none, draws := s.draws + 1, ticked := true }

/-- The end of a tick: the timers count down unless the tick faulted (R223, R242). -/
def endTick (s : State) : State := useInputs (if s.halted then s else timerCountdown s)

/-- The tick's random draw `rnd` (R34): the host's, or the free value (assumption log entry 1). -/
def State.rnd (s : State) : Byte := s.rndIn.getD (Config.freeDraw s.draws)

end Sys2Proof.Machine
end

