-- ==== Sys2Proof/Machine/Operands.lean ====
section
/-! DEFINITION. The operand forms: general registers and their blocks (10_state.md R21, R23), addresses I + k
(00_scope.md R10), the keypad index and the key scan (44_input.md R202, R203), skips (40_control_flow.md R109) and the
return-address stack (10_state.md R26, R27). -/

namespace Sys2Proof.Machine

/-- V[r] (R10, R21). -/
def State.getV (s : State) (r : RegIx) : Byte := s.v[r]

/-- V[r] <- b (R10, R21). No register is hard-wired. -/
def State.setV (s : State) (r : RegIx) (b : Byte) : State := { s with v := s.v.set r b }

/-- VF, the flags register (R22). -/
def vf : RegIx := 0xF

/-- The registers V0..VX in ascending order (R23). -/
def State.regsTo (s : State) (x : RegIx) : List Byte := s.v.toList.take (x.val + 1)

/-- V[k], V[k+1], … <- the bytes, in ascending order (R165). -/
def State.setRegsFrom (s : State) (k : Nat) : List Byte → State
  | [] => s
  | b :: bs => State.setRegsFrom { s with v := s.v.setIfInBounds k b } (k + 1) bs

/-- The address I, before any offset is added: a mathematical integer, never truncated (R10, D10). -/
def State.indexAddr (s : State) : Nat := s.i.toNat

/-- keys[k] == 1 (R33). -/
def State.pressed (s : State) (k : RegIx) : Bool := s.keys.getLsbD k.val

/-- key_index(v) of R203. -/
def keyIndex (v : Byte) : Except Raise RegIx :=
  if h : v.toNat < 16 then .ok ⟨v.toNat, h⟩ else .error ⟨.keyOutOfRange, v.setWidth 16⟩

/-- The pressed key that FX0A stores, if any is pressed: the lowest or the highest, as KEY_SCAN_ORDER says (R202). -/
def State.scanKeys (s : State) : Option RegIx :=
  match s.cfg.keyScanOrder with
  | .lowest => (List.finRange 16).find? s.pressed
  | .highest => (List.finRange 16).reverse.find? s.pressed

/-- `if c: pc <- trunc16(pc + 2)` (R109). -/
def State.skipIf (c : Bool) (s : State) : State := if c then { s with pc := s.pc + 2 } else s

/-- `stack[SP] <- pc; SP <- SP + 1`, or STACK_OVERFLOW when SP = 16 (R27, R103). -/
def State.push (s : State) : Except Raise State :=
  if h : s.sp.val < 16 then
    .ok { s with stack := s.stack.set s.sp.val s.pc, sp := ⟨s.sp.val + 1, by omega⟩ }
  else .error ⟨.stackOverflow, 0⟩

/-- `SP <- SP - 1; pc <- stack[SP]`, or STACK_UNDERFLOW when SP = 0 (R27, R101). The slot keeps its value. -/
def State.pop (s : State) : Except Raise State :=
  if h : s.sp.val = 0 then .error ⟨.stackUnderflow, 0⟩
  else .ok { s with sp := ⟨s.sp.val - 1, by omega⟩, pc := s.stack[s.sp.val - 1]'(by omega) }

end Sys2Proof.Machine
end

