-- ==== Sys2Proof/Machine/Flags.lean ====
section
/-! DEFINITION. The flag and result of each flag-writing instruction of family 8, and the procedure that commits them
to VF and VX (41_arithmetic.md R136 to R140, R142). -/

namespace Sys2Proof.Machine

/-- A flag as VF holds it: 1 or 0. -/
def flagByte (c : Bool) : Byte := if c then 1 else 0

/-- R136: the carry of a + b at 9-bit precision. -/
def addFlag (a b : Byte) : Bool := decide (a.toNat + b.toNat > 255)
/-- R136: trunc8(a + b). -/
def addResult (a b : Byte) : Byte := a + b

/-- R137: NOT borrow of a - b. -/
def subFlag (a b : Byte) : Bool := !decide (b.toNat > a.toNat)
/-- R137: trunc8(a - b). -/
def subResult (a b : Byte) : Byte := a - b

/-- R138: 1 when b > a, SUBN_EQ_VF when they are equal, else 0. -/
def subnFlag (eqVf : Bool) (a b : Byte) : Bool :=
  if b.toNat > a.toNat then true else if a = b then eqVf else false
/-- R138: trunc8(b - a). -/
def subnResult (a b : Byte) : Byte := b - a

/-- R139: bit 0, the bit shifted out. -/
def shrFlag (a : Byte) : Bool := a.getLsbD 0
/-- R139: a >> 1. -/
def shrResult (a : Byte) : Byte := a >>> 1

/-- R140: bit 7, the bit shifted out. -/
def shlFlag (a : Byte) : Bool := a.getLsbD 7
/-- R140: trunc8(a << 1). -/
def shlResult (a : Byte) : Byte := a <<< 1

/-- R142's commit(f, r), as VF_DEST says. -/
def commit (f : Byte → Byte → Bool) (r : Byte → Byte → Byte) (x y : RegIx) (s : State) : State :=
  let a := s.getV x
  let b := s.getV y
  match s.cfg.vfDest with
  | .result => (s.setV vf (flagByte (f a b))).setV x (r a b)
  | .flag => (s.setV x (r a b)).setV vf (flagByte (f a b))
  | .reread =>
    let s1 := s.setV vf (flagByte (f a b))
    s1.setV x (r (s1.getV x) (s1.getV y))

end Sys2Proof.Machine
end

