-- ==== Sys2Proof/Machine/Arithmetic.lean ====
section
/-! DEFINITION. The arithmetic and logic instructions (41_arithmetic.md R130 to R141). None raises a fault or reaches
memory. -/

namespace Sys2Proof.Machine

/-- 6XNN, R130. -/
def execLdImm (x : RegIx) (nn : Byte) (s : State) : Host.Outcome State Fault Refusal :=
  complete (fun s => s.setV x nn) s

/-- 7XNN, R131: wraps, and writes no flag. -/
def execAddImm (x : RegIx) (nn : Byte) (s : State) : Host.Outcome State Fault Refusal :=
  complete (fun s => s.setV x (s.getV x + nn)) s

/-- 8XY0, R132. -/
def execLdReg (x y : RegIx) (s : State) : Host.Outcome State Fault Refusal :=
  complete (fun s => s.setV x (s.getV y)) s

/-- 8XY1, R133: VF is not reset. -/
def execOrReg (x y : RegIx) (s : State) : Host.Outcome State Fault Refusal :=
  complete (fun s => s.setV x (s.getV x ||| s.getV y)) s

/-- 8XY2, R134. -/
def execAndReg (x y : RegIx) (s : State) : Host.Outcome State Fault Refusal :=
  complete (fun s => s.setV x (s.getV x &&& s.getV y)) s

/-- 8XY3, R135. -/
def execXorReg (x y : RegIx) (s : State) : Host.Outcome State Fault Refusal :=
  complete (fun s => s.setV x (s.getV x ^^^ s.getV y)) s

/-- 8XY4, R136. -/
def execAddReg (x y : RegIx) (s : State) : Host.Outcome State Fault Refusal :=
  complete (commit addFlag addResult x y) s

/-- 8XY5, R137. -/
def execSubReg (x y : RegIx) (s : State) : Host.Outcome State Fault Refusal :=
  complete (commit subFlag subResult x y) s

/-- 8XY6, R139: VY is never read. -/
def execShr (x : RegIx) (s : State) : Host.Outcome State Fault Refusal :=
  complete (commit (fun a _ => shrFlag a) (fun a _ => shrResult a) x x) s

/-- 8XY7, R138. -/
def execSubnReg (x y : RegIx) (s : State) : Host.Outcome State Fault Refusal :=
  complete (commit (subnFlag s.cfg.subnEqVf) subnResult x y) s

/-- 8XYE, R140: VY is never read. -/
def execShl (x : RegIx) (s : State) : Host.Outcome State Fault Refusal :=
  complete (commit (fun a _ => shlFlag a) (fun a _ => shlResult a) x x) s

/-- CXNN, R141: the tick's draw masked by NN; under CXNN_MODE = noop, an unknown opcode (R79). -/
def execRnd (x : RegIx) (nn : Byte) (s : State) : Host.Outcome State Fault Refusal :=
  complete (fun s => match s.cfg.cxnnMode with
    | .random => s.setV x (s.rnd &&& nn)
    | .noop => s) s

end Sys2Proof.Machine
end

