-- ==== Sys2Proof/Machine/ControlFlow.lean ====
section
/-! DEFINITION. The display clear, the control transfers and the conditional skips on registers (40_control_flow.md
R100 to R109), and the unknown opcode (30_encoding.md R79). -/

namespace Sys2Proof.Machine

/-- The framebuffer with every pixel 0 (R100). -/
def blankFrame : Framebuffer := Vector.replicate 64 (Vector.replicate 32 false)

/-- 00E0, R100. -/
def execCls (s : State) : Host.Outcome State Fault Refusal :=
  complete (fun s => { s with fb := blankFrame }) s

/-- 00EE, R101. -/
def execRet (s : State) : Host.Outcome State Fault Refusal :=
  runHandler State.pop s

/-- 1NNN, R102. -/
def execJp (nnn : BitVec 12) (s : State) : Host.Outcome State Fault Refusal :=
  complete (fun s => { s with pc := nnn.setWidth 16 }) s

/-- The handler of 2NNN: pushes the already-advanced pc (R103). -/
def callHandler (nnn : BitVec 12) : Handler := fun s =>
  match s.push with
  | .error r => .error r
  | .ok s' => .ok { s' with pc := nnn.setWidth 16 }

/-- 2NNN, R103. -/
def execCall (nnn : BitVec 12) (s : State) : Host.Outcome State Fault Refusal :=
  runHandler (callHandler nnn) s

/-- 3XNN, R104. -/
def execSeImm (x : RegIx) (nn : Byte) (s : State) : Host.Outcome State Fault Refusal :=
  complete (fun s => s.skipIf (s.getV x == nn)) s

/-- 4XNN, R105. -/
def execSneImm (x : RegIx) (nn : Byte) (s : State) : Host.Outcome State Fault Refusal :=
  complete (fun s => s.skipIf (s.getV x != nn)) s

/-- 5XY0, R106. -/
def execSeReg (x y : RegIx) (s : State) : Host.Outcome State Fault Refusal :=
  complete (fun s => s.skipIf (s.getV x == s.getV y)) s

/-- 9XY0, R107. -/
def execSneReg (x y : RegIx) (s : State) : Host.Outcome State Fault Refusal :=
  complete (fun s => s.skipIf (s.getV x != s.getV y)) s

/-- BNNN, R108: NNN + V0. -/
def execJpV0 (nnn : BitVec 12) (s : State) : Host.Outcome State Fault Refusal :=
  complete (fun s => { s with pc := nnn.setWidth 16 + (s.getV 0).setWidth 16 }) s

/-- An unknown opcode, R79: nothing beyond the pc advance. -/
def execUnknown (_w : Word) (s : State) : Host.Outcome State Fault Refusal :=
  complete (fun s => s) s

end Sys2Proof.Machine
end

