-- ==== Sys2Proof/Machine/Draw.lean ====
section
/-! DEFINITION. The sprite draw and its collision flag (43_draw.md R180 to R185). -/

namespace Sys2Proof.Machine

/-- fb[x][y] (R32). -/
def Framebuffer.get (fb : Framebuffer) (x : Fin 64) (y : Fin 32) : Bool := fb[x][y]

/-- fb[x][y] <- p. -/
def Framebuffer.put (fb : Framebuffer) (x : Fin 64) (y : Fin 32) (p : Bool) : Framebuffer := fb.set x (fb[x].set y p)

/-- Where a pixel of the sprite lands, if it is kept: R182 under clip, R183 under wrap. -/
def edge (e : DrawEdge) (px py : Nat) : Option (Fin 64 × Fin 32) :=
  match e with
  | .clip => if h : px ≤ 63 ∧ py ≤ 31 then some (⟨px, by omega⟩, ⟨py, by omega⟩) else none
  | .wrap => some (⟨px % 64, by omega⟩, ⟨py % 32, by omega⟩)

/-- The framebuffer and the collision flag while a sprite is drawn. -/
structure Canvas where
  fb : Framebuffer
  hit : Bool
deriving DecidableEq, Repr

/-- One set sprite bit on its pixel: a lit pixel is cleared and the flag set, an unlit one is lit (R185). -/
def Canvas.plot (c : Canvas) : Option (Fin 64 × Fin 32) → Canvas
  | none => c
  | some (x, y) =>
    if c.fb.get x y then { fb := c.fb.put x y false, hit := true } else { c with fb := c.fb.put x y true }

/-- Column `c` of a sprite row is bit 7 - c of its byte (R184). -/
def spriteBit (b : Byte) (c : Nat) : Bool := b.getLsbD (7 - c)

/-- The columns of one sprite row from left to right: only a set bit touches its pixel (R180, R185). -/
def drawColumns (e : DrawEdge) (x0 py : Nat) (b : Byte) : List Nat → Canvas → Canvas
  | [], cv => cv
  | c :: cs, cv => drawColumns e x0 py b cs (if spriteBit b c then cv.plot (edge e (x0 + c) py) else cv)

/-- One sprite row of eight columns. -/
def drawRow (e : DrawEdge) (x0 py : Nat) (b : Byte) (cv : Canvas) : Canvas :=
  drawColumns e x0 py b [0, 1, 2, 3, 4, 5, 6, 7] cv

/-- The sprite's rows from top to bottom, the first at row `py`. -/
def drawRows (e : DrawEdge) (x0 py : Nat) : List Byte → Canvas → Canvas
  | [], cv => cv
  | b :: bs, cv => drawRows e x0 (py + 1) bs (drawRow e x0 py b cv)

/-- The x origin: VX mod 64 (R181). -/
def originX (v : Byte) : Nat := v.toNat % 64
/-- The y origin: VY mod 32 (R181). -/
def originY (v : Byte) : Nat := v.toNat % 32

/-- The whole sprite `rows` drawn on the framebuffer with its origin at VX, VY. -/
def State.drawn (s : State) (x y : RegIx) (rows : List Byte) : Canvas :=
  drawRows s.cfg.drawEdge (originX (s.getV x)) (originY (s.getV y)) rows ⟨s.fb, false⟩

/-- The handler of DXYN. The origin is read before VF is written (D13). Every row is read and range-checked; since
drawing writes no memory and a raise undoes the whole draw, the rows are read first. -/
def drwHandler (x y : RegIx) (n : BitVec 4) : Handler := fun s =>
  match readBlock s s.indexAddr n.toNat with
  | .error r => .error r
  | .ok rows => .ok ({ s with fb := (s.drawn x y rows).fb }.setV vf (flagByte (s.drawn x y rows).hit))

/-- DXYN, R180. -/
def execDrw (x y : RegIx) (n : BitVec 4) (s : State) : Host.Outcome State Fault Refusal :=
  runHandler (drwHandler x y n) s

end Sys2Proof.Machine
end

