-- ==== Sys2Proof/Machine/Input.lean ====
section
/-! DEFINITION. The keypad instructions (44_input.md R200 to R203). The keypad is never written by the core (R204). -/

namespace Sys2Proof.Machine

/-- The handler of EX9E. -/
def skpHandler (x : RegIx) : Handler := fun s =>
  match keyIndex (s.getV x) with
  | .error r => .error r
  | .ok k => .ok (s.skipIf (s.pressed k))

/-- EX9E, R200. -/
def execSkp (x : RegIx) (s : State) : Host.Outcome State Fault Refusal :=
  runHandler (skpHandler x) s

/-- The handler of EXA1. -/
def sknpHandler (x : RegIx) : Handler := fun s =>
  match keyIndex (s.getV x) with
  | .error r => .error r
  | .ok k => .ok (s.skipIf (!s.pressed k))

/-- EXA1, R201. -/
def execSknp (x : RegIx) (s : State) : Host.Outcome State Fault Refusal :=
  runHandler (sknpHandler x) s

/-- FX0A, R202: with no key pressed the pc goes back to this opcode. -/
def execLdVxK (x : RegIx) (s : State) : Host.Outcome State Fault Refusal :=
  complete (fun s =>
    match s.scanKeys with
    | some k => s.setV x (BitVec.ofNat 8 k.val)
    | none => { s with pc := s.pc - 2 }) s

end Sys2Proof.Machine
end

