-- ==== Sys2Proof/Machine/MemoryIndex.lean ====
section
/-! DEFINITION. The index register, BCD and memory-block instructions (42_memory_index.md R160 to R165). -/

namespace Sys2Proof.Machine

/-- ANNN, R160. -/
def execLdI (nnn : BitVec 12) (s : State) : Host.Outcome State Fault Refusal :=
  complete (fun s => { s with i := nnn.setWidth 16 }) s

/-- FX1E, R161: wraps modulo 65536, with no flag and no mask to 12 bits. -/
def execAddI (x : RegIx) (s : State) : Host.Outcome State Fault Refusal :=
  complete (fun s => { s with i := s.i + (s.getV x).setWidth 16 }) s

/-- The address of the glyph for the low nibble of a value (R162). -/
def glyphAddr (cfg : Config) (v : Byte) : Word := BitVec.ofNat 16 (cfg.fontBase.val + 5 * (v &&& 0x0F).toNat)

/-- FX29, R162. -/
def execLdF (x : RegIx) (s : State) : Host.Outcome State Fault Refusal :=
  complete (fun s => { s with i := glyphAddr s.cfg (s.getV x) }) s

/-- The three decimal digits of a byte, hundreds first (R163). -/
def bcdDigits (v : Byte) : List Byte := [v / 100, v / 10 % 10, v % 10]

/-- The handler of FX33. -/
def ldBHandler (x : RegIx) : Handler := fun s => writeBlock s s.indexAddr (bcdDigits (s.getV x))

/-- FX33, R163. -/
def execLdB (x : RegIx) (s : State) : Host.Outcome State Fault Refusal :=
  runHandler (ldBHandler x) s

/-- The handler of FX55: I is unchanged (R164). -/
def storeRegsHandler (x : RegIx) : Handler := fun s => writeBlock s s.indexAddr (s.regsTo x)

/-- FX55, R164. -/
def execStoreRegs (x : RegIx) (s : State) : Host.Outcome State Fault Refusal :=
  runHandler (storeRegsHandler x) s

/-- The handler of FX65: I is unchanged (R165). No write of a register changes what a later byte reads as, and a raise
undoes all of them, so the bytes are read first. -/
def loadRegsHandler (x : RegIx) : Handler := fun s =>
  match readBlock s s.indexAddr (x.val + 1) with
  | .error r => .error r
  | .ok bs => .ok (s.setRegsFrom 0 bs)

/-- FX65, R165. -/
def execLoadRegs (x : RegIx) (s : State) : Host.Outcome State Fault Refusal :=
  runHandler (loadRegsHandler x) s

end Sys2Proof.Machine
end

