-- ==== Sys2Proof/Machine/Timer.lean ====
section
/-! DEFINITION. The timer instructions (45_timer.md R220 to R222). The countdown of R223 stands in Ops.lean. -/

namespace Sys2Proof.Machine

/-- FX07, R220: DT before this tick's countdown. -/
def execLdVxDt (x : RegIx) (s : State) : Host.Outcome State Fault Refusal :=
  complete (fun s => s.setV x s.dt) s

/-- FX15, R221. -/
def execLdDtVx (x : RegIx) (s : State) : Host.Outcome State Fault Refusal :=
  complete (fun s => { s with dt := s.getV x }) s

/-- FX18, R222. -/
def execLdStVx (x : RegIx) (s : State) : Host.Outcome State Fault Refusal :=
  complete (fun s => { s with st := s.getV x }) s

end Sys2Proof.Machine
end

