-- ==== Sys2Proof/Machine/Step.lean ====
section
/-! DEFINITION. One tick (30_encoding.md R81), and the placing of an instruction where the next tick fetches. -/

namespace Sys2Proof.Machine

/-- tick() of R81: nothing while halted (R243); the fetch check; the handler of the decoded opcode; the end of the
tick. -/
def step (s : State) : Host.Outcome State Fault Refusal :=
  if s.halted then .next s
  else
    match fetch s with
    | .error r => .next (endTick (raiseFault s r))
    | .ok op =>
      match exec (decode s.cfg op) s with
      | .next t => .next (endTick t)
      | .fault f => .fault f
      | .refused r => .refused r

/-- The state with the host's word stored at pc, big-endian (R52), where the next tick fetches it. It stands for the
program load of R273 (assumption log entry 13). With pc above 0xFFE nothing can be fetched and nothing is stored. -/
def State.withFetchWord (s : State) (nbits w : Nat) : State :=
  if s.pc.toNat > 0x0FFE then s
  else (s.setByte s.pc.toNat (highByte (tableWord nbits w))).setByte (s.pc.toNat + 1) (lowByte (tableWord nbits w))

end Sys2Proof.Machine
end

