-- ==== Sys2Proof/Machine/HostOps.lean ====
section
/-! DEFINITION. The host operations of 60_exceptions.md R248 to R252, each performed only between ticks: reset, load,
write_keys, tick, read_fb and read_fault. `step` is the tick with the keys last written and a free draw. -/

namespace Sys2Proof.Machine

/-- reset (R270), under the parameters of this machine. The count of draws goes on, so that a draw after reset is not
one used before it (assumption log entry 1). -/
def hostReset (s : State) : State := { State.resetWith s.cfg with draws := s.draws }

/-- The answer of the load operation (R273). -/
inductive LoadResult where
  /-- The bytes are in memory. -/
  | ok
  /-- LOAD_ERROR: more than 3584 bytes. -/
  | loadError
  /-- A program was already loaded or a tick has run since reset (D21). -/
  | notAdmitted
deriving DecidableEq, Repr

/-- PROG_BASE (R6). -/
def progBase : Nat := 0x200
/-- PROG_MAX (R6). -/
def progMax : Nat := 3584

/-- The bytes copied to memory from address `a` on. -/
def State.copyIn (s : State) (a : Nat) : List Byte → State
  | [] => s
  | b :: bs => State.copyIn (s.setByte a b) (a + 1) bs

/-- load (R273): admitted only before any load or tick since reset; a ROM that is too long changes no state. -/
def hostLoad (rom : List Byte) (s : State) : LoadResult × State :=
  if s.loaded || s.ticked then (.notAdmitted, s)
  else if rom.length > progMax then (.loadError, s)
  else (.ok, { s.copyIn progBase rom with loaded := true })

/-- write_keys (R248, R250): the keypad input of later ticks. -/
def hostWriteKeys (keys : BitVec 16) (s : State) : State := { s with keys := keys }

/-- tick (R248, R249) with the host's random draw; a halted core changes nothing (R243). -/
def hostTick (rnd : Byte) (s : State) : Host.Outcome State Fault Refusal :=
  if s.halted then .next s else step { s with rndIn := some rnd }

/-- read_fb (R250, R187): pixel (x, y), true for lit. -/
def hostReadFb (s : State) (x : Fin 64) (y : Fin 32) : Bool := s.fb.get x y

/-- The flat byte view of R187: pixel (x, y) is byte y × 64 + x, 0 or 1. -/
def hostFlatFb (s : State) : List Byte :=
  (List.finRange 32).flatMap fun y => (List.finRange 64).map fun x => flagByte (s.fb.get x y)

/-- read_fault (R248): code, pc and info. -/
def hostReadFault (s : State) : Byte × Word × Word := (s.fault.code.toByte, s.fault.pc, s.fault.info)

end Sys2Proof.Machine
end

