-- ==== Sys2Proof/WellFormed.lean ====
section
/-! DEFINITION. Which terms of Instr stand for a word of the machine. The operand types admit exactly the values the
fields of R71 admit, so two checks are left, and both depend on CXNN_MODE: RND is an instruction under `random` only,
and `unknown w` stands for a word of the list of 30_encoding.md R79 only. -/

namespace Sys2Proof

/-- R79's list of the unknown opcodes, family by family, written with the masks of that rule. -/
def isUnknownWord (cfg : Config) (w : Word) : Bool :=
  let low : Word := w &&& 0x000F
  let nn : Word := w &&& 0x00FF
  match w &&& 0xF000 with
  | 0x0000 => !([0x0, 0xE].contains low)
  | 0x8000 => [0x8, 0x9, 0xA, 0xB, 0xC, 0xD, 0xF].contains low
  | 0xC000 => cfg.cxnnMode == .noop
  | 0xE000 => !([0xE, 0x1].contains low)
  | 0xF000 => !([0x07, 0x0A, 0x15, 0x18, 0x1E, 0x29, 0x33, 0x55, 0x65].contains nn)
  | _ => false

/-- An instruction that some word decodes to under the parameters `cfg`. -/
def Instr.wellFormed (cfg : Config) : Instr → Bool
  | .rnd _ _ => cfg.cxnnMode == .random
  | .unknown w => isUnknownWord cfg w
  | _ => true

end Sys2Proof
end

