-- ==== Sys2Proof/Safety.lean ====
section
/-! DEFINITION. The terms the claims are stated in: the invariants of the machine, the end of a run, what an instruction
may write, the fields of a word by division, and the pixels a sprite covers. -/

namespace Sys2Proof.Machine

/-! ### Invariants -/

/-- What FAULT holds agrees with the state it was written in (R30, R241, R242): the fault is precise, so pc still
addresses the faulting opcode and SP, I or pc still show the cause. -/
def State.faultConsistent (s : State) : Prop :=
  match s.fault.code with
  | .none => s.fault.pc = 0 ∧ s.fault.info = 0
  | .stackOverflow => s.fault.pc = s.pc ∧ s.fault.info = 0 ∧ s.sp = 16
  | .stackUnderflow => s.fault.pc = s.pc ∧ s.fault.info = 0 ∧ s.sp = 0
  | .memOutOfRange => s.fault.pc = s.pc ∧ s.fault.info.toNat = max s.i.toNat 0x1000
  | .keyOutOfRange => s.fault.pc = s.pc ∧ 0x0F < s.fault.info.toNat ∧ s.fault.info.toNat ≤ 0xFF
  | .fetchOutOfRange => s.fault.pc = s.pc ∧ s.fault.info = s.pc ∧ 0x0FFE < s.pc.toNat

/-- D9: no pc above 0x10FE is reachable; a return address is the address after a CALL that was fetched, so at most
0x1000. -/
def State.pcBounded (s : State) : Prop :=
  s.pc.toNat ≤ 0x10FE ∧ ∀ k : Fin 16, (s.stack[k]).toNat ≤ 0x1000

/-! ### Ticks, and the end of a run (R279) -/

/-- The instruction the next tick fetches, if the fetch is in range. -/
def State.nextInstr (s : State) : Option Instr :=
  match fetch s with
  | .ok op => some (decode s.cfg op)
  | .error _ => none

/-- The state after one tick. -/
def State.tick (s : State) : State :=
  match step s with
  | .next t => t
  | .fault _ => s
  | .refused _ => s

/-- The state after `k` ticks. -/
def State.ticks : Nat → State → State
  | 0, s => s
  | k + 1, s => State.ticks k s.tick

/-- R279 (b): the opcode at pc is 1NNN with NNN = pc. -/
def State.parked (s : State) : Prop :=
  ∃ nnn : BitVec 12, s.nextInstr = some (.jp nnn) ∧ nnn.toNat = s.pc.toNat

/-- R279: a run has ended when the core has faulted or is parked. -/
def State.ended (s : State) : Prop := s.fault.code ≠ .none ∨ s.parked

/-! ### What an instruction may write -/

/-- The general registers an instruction may write: its destination, VF as a flag, or the block V0..VX (R21 to R23). -/
def mayWriteV (q : RegIx) : Instr → Bool
  | .ldImm x _ | .addImm x _ | .rnd x _ => q == x
  | .ldReg x _ | .orReg x _ | .andReg x _ | .xorReg x _ => q == x
  | .addReg x _ | .subReg x _ | .subnReg x _ => q == x || q == vf
  | .shr x | .shl x => q == x || q == vf
  | .drw _ _ _ => q == vf
  | .ldVxDt x | .ldVxK x => q == x
  | .loadRegs x => decide (q ≤ x)
  | .cls | .ret | .jp _ | .call _ | .seImm _ _ | .sneImm _ _ | .seReg _ _ | .sneReg _ _ => false
  | .ldI _ | .jpV0 _ | .skp _ | .sknp _ | .ldDtVx _ | .ldStVx _ | .addI _ | .ldF _ | .ldB _ | .storeRegs _ => false
  | .unknown _ => false

/-- How many bytes from address I on an instruction accesses, of those of R51 that access memory. -/
def dataBytes : Instr → Option Nat
  | .drw _ _ n => some n.toNat
  | .ldB _ => some 3
  | .storeRegs x => some (x.val + 1)
  | .loadRegs x => some (x.val + 1)
  | .cls | .ret | .jp _ | .call _ | .seImm _ _ | .sneImm _ _ | .seReg _ _ | .sneReg _ _ => none
  | .ldImm _ _ | .addImm _ _ | .ldReg _ _ | .orReg _ _ | .andReg _ _ | .xorReg _ _ => none
  | .addReg _ _ | .subReg _ _ | .shr _ | .subnReg _ _ | .shl _ | .rnd _ _ => none
  | .ldI _ | .jpV0 _ | .skp _ | .sknp _ | .ldVxDt _ | .ldVxK _ | .ldDtVx _ | .ldStVx _ | .addI _ | .ldF _ => none
  | .unknown _ => none

/-! ### The fields of R71, by division -/

/-- X of R71. -/
def opX (w : Word) : RegIx := Fin.ofNat 16 (w.toNat / 256)
/-- Y of R71. -/
def opY (w : Word) : RegIx := Fin.ofNat 16 (w.toNat / 16)
/-- N of R71. -/
def opN (w : Word) : BitVec 4 := BitVec.ofNat 4 w.toNat
/-- NN of R71. -/
def opNN (w : Word) : Byte := BitVec.ofNat 8 w.toNat
/-- NNN of R71. -/
def opNNN (w : Word) : BitVec 12 := BitVec.ofNat 12 w.toNat

/-! ### Flag-writing instructions -/

/-- R142 for an instruction with operands X and Y, flag f(a, b) and result r(a, b) on the operands' values as
integers: what VF and VX hold after it under each VF_DEST, X = F and Y = F included, and that nothing else changes. -/
def CommitsFlag (i : Instr) (x y : RegIx) (f : Config → Nat → Nat → Nat) (r : Nat → Nat → Nat) : Prop :=
  ∀ s : State, ∃ t, exec i s = .next t ∧
    t = { s with v := t.v, pc := s.pc + 2 } ∧
    (∀ q, q ≠ x → q ≠ vf → t.getV q = s.getV q) ∧
    (x ≠ vf →
      (t.getV vf).toNat = f s.cfg (s.getV x).toNat (s.getV y).toNat ∧
      (t.getV x).toNat =
        if s.cfg.vfDest = .reread ∧ y = vf
        then r (s.getV x).toNat (f s.cfg (s.getV x).toNat (s.getV y).toNat)
        else r (s.getV x).toNat (s.getV y).toNat) ∧
    (x = vf → (t.getV vf).toNat =
      match s.cfg.vfDest with
      | .result => r (s.getV x).toNat (s.getV y).toNat
      | .flag => f s.cfg (s.getV x).toNat (s.getV y).toNat
      | .reread =>
        r (f s.cfg (s.getV x).toNat (s.getV y).toNat)
          (if y = vf then f s.cfg (s.getV x).toNat (s.getV y).toNat else (s.getV y).toNat))

/-! ### Sprites -/

/-- The pixel at column `cx`, row `cy`, counted without bound, is pixel (px, py) of the framebuffer (R182, R183). -/
def lands (e : DrawEdge) (cx cy : Nat) (px : Fin 64) (py : Fin 32) : Prop :=
  match e with
  | .clip => cx = px.val ∧ cy = py.val
  | .wrap => cx % 64 = px.val ∧ cy % 32 = py.val

/-- A set bit of the sprite that `drw x y n` draws in state `s` lands on pixel (px, py): row r is the byte at I + r,
column c is its bit 7 - c, and the origin is (VX mod 64, VY mod 32) (R180, R181, R184). -/
def State.covers (s : State) (x y : RegIx) (n : BitVec 4) (px : Fin 64) (py : Fin 32) : Prop :=
  ∃ r c, r < n.toNat ∧ c < 8 ∧ (s.byteAt (s.indexAddr + r)).getLsbD (7 - c) = true ∧
    lands s.cfg.drawEdge ((s.getV x).toNat % 64 + c) ((s.getV y).toNat % 32 + r) px py

end Sys2Proof.Machine
end

