-- ==== Sys2Proof/Certificates/Slice0/Obligations.lean ====
section
/-! DEFINITION. The statements for the provers. An exec statement's state `s` is the state at the start of the tick,
before the pc advance of R81; `{ s with … }` on the right says that everything else is unchanged. -/

section

open Sys2Proof Sys2Proof.Machine

/-! ### Encoding -/

/-- Words of the spec's ROMs and vectors (30_encoding.md §4, 95_test_vectors.md), one or more per family. -/
def Obligations.SpecWordsDecode : Prop :=
  [0x00E0, 0x0000, 0x0FFE, 0x1206, 0x2204, 0x3342, 0x4342, 0x5127, 0x600A].map (decode defaultConfig) =
    [.cls, .cls, .ret, .jp 0x206, .call 0x204, .seImm 3 0x42, .sneImm 3 0x42, .seReg 1 2, .ldImm 0 0x0A] ∧
  [0x7203, 0x8014, 0x8406, 0x8017, 0x912F, 0xA2F0, 0xBFFF, 0xC30F, 0xD015].map (decode defaultConfig) =
    [.addImm 2 0x03, .addReg 0 1, .shr 4, .subnReg 0 1, .sneReg 1 2, .ldI 0x2F0, .jpV0 0xFFF, .rnd 3 0x0F, .drw 0 1 5] ∧
  [0xE19E, 0xE1A1, 0xF207, 0xF30A, 0xF215, 0xF218, 0xF21E, 0xF529, 0xF033].map (decode defaultConfig) =
    [.skp 1, .sknp 1, .ldVxDt 2, .ldVxK 3, .ldDtVx 2, .ldStVx 2, .addI 2, .ldF 5, .ldB 0] ∧
  [0xF255, 0xF165, 0x00E1, 0x8018, 0xE0A0, 0xF0FF].map (decode defaultConfig) =
    [.storeRegs 2, .loadRegs 1, .unknown 0x00E1, .unknown 0x8018, .unknown 0xE0A0, .unknown 0xF0FF]

/-- Decoding an encoded instruction gives it back, with every operand at every value, under every setting of the
parameters; and so do the two bytes the encoder lays out in memory order. -/
def Obligations.DecodeEncodeRoundTrip : Prop :=
  ∀ (cfg : Config) (i : Instr), i.wellFormed cfg = true →
    decode cfg (encode i) = i ∧ decodeBytes cfg (encodeBytes i) = .ok (i, [])

/-- Every one of the 65536 words is an unknown opcode of R79's list, which decodes as one and runs as a no-op with no
fault, or fits exactly one row of the opcode map, the row of the instruction it decodes to. That a word fits no second
row is the spec's derivation (30_encoding.md §4), and which row a word has rests on its encodings of general knowledge
(D24, log entry 20). -/
def Obligations.EveryWordIsInstructionOrUnknown : Prop :=
  ∀ (cfg : Config) (w : Word),
    (isUnknownWord cfg w = true → decode cfg w = .unknown w ∧
      ∀ s : State, exec (.unknown w) s = .next { s with pc := s.pc + 2 }) ∧
    (isUnknownWord cfg w = false →
      opcodeMap.filter (fun r => r.fits w) = [(decode cfg w).row] ∧ (decode cfg w).wellFormed cfg = true ∧
      decode cfg w ≠ .unknown w)

/-- R74: family 0 dispatches on the low nibble alone, whatever bits 11:4 hold. -/
def Obligations.FamilyZeroDispatchesOnLowNibble : Prop :=
  ∀ (cfg : Config) (w : Word), w &&& 0xF000 = 0x0000 →
    (opN w = 0x0 → decode cfg w = .cls) ∧ (opN w = 0xE → decode cfg w = .ret) ∧
    (opN w ≠ 0x0 → opN w ≠ 0xE → decode cfg w = .unknown w)

/-- The rows of the opcode map with their operand fields by division (R71): every word with the row's match under the
row's mask decodes to the row's instruction, whatever the ignored bits hold. The encodings marked 'general knowledge' in
the spec (30_encoding.md §2, D24) are its own inference. -/
def Obligations.OpcodeMapRowsDecode : Prop :=
  ∀ (cfg : Config) (w : Word),
    (w &&& 0xF000 = 0x3000 → decode cfg w = .seImm (opX w) (opNN w)) ∧
    (w &&& 0xF000 = 0x4000 → decode cfg w = .sneImm (opX w) (opNN w)) ∧
    (w &&& 0xF000 = 0x5000 → decode cfg w = .seReg (opX w) (opY w)) ∧
    (w &&& 0xF000 = 0x7000 → decode cfg w = .addImm (opX w) (opNN w)) ∧
    (w &&& 0xF00F = 0x8000 → decode cfg w = .ldReg (opX w) (opY w)) ∧
    (w &&& 0xF00F = 0x8001 → decode cfg w = .orReg (opX w) (opY w)) ∧
    (w &&& 0xF00F = 0x8002 → decode cfg w = .andReg (opX w) (opY w)) ∧
    (w &&& 0xF00F = 0x8003 → decode cfg w = .xorReg (opX w) (opY w)) ∧
    (w &&& 0xF00F = 0x8004 → decode cfg w = .addReg (opX w) (opY w)) ∧
    (w &&& 0xF00F = 0x8005 → decode cfg w = .subReg (opX w) (opY w)) ∧
    (w &&& 0xF00F = 0x8006 → decode cfg w = .shr (opX w)) ∧
    (w &&& 0xF00F = 0x8007 → decode cfg w = .subnReg (opX w) (opY w)) ∧
    (w &&& 0xF00F = 0x800E → decode cfg w = .shl (opX w)) ∧
    (w &&& 0xF000 = 0x9000 → decode cfg w = .sneReg (opX w) (opY w)) ∧
    (w &&& 0xF000 = 0xC000 → decode cfg w =
      match cfg.cxnnMode with
      | .random => .rnd (opX w) (opNN w)
      | .noop => .unknown w) ∧
    (w &&& 0xF000 = 0xD000 → decode cfg w = .drw (opX w) (opY w) (opN w)) ∧
    (w &&& 0xF00F = 0xE00E → decode cfg w = .skp (opX w)) ∧
    (w &&& 0xF00F = 0xE001 → decode cfg w = .sknp (opX w)) ∧
    (w &&& 0xF0FF = 0xF007 → decode cfg w = .ldVxDt (opX w)) ∧
    (w &&& 0xF0FF = 0xF00A → decode cfg w = .ldVxK (opX w)) ∧
    (w &&& 0xF0FF = 0xF015 → decode cfg w = .ldDtVx (opX w)) ∧
    (w &&& 0xF0FF = 0xF018 → decode cfg w = .ldStVx (opX w)) ∧
    (w &&& 0xF0FF = 0xF01E → decode cfg w = .addI (opX w)) ∧
    (w &&& 0xF0FF = 0xF029 → decode cfg w = .ldF (opX w)) ∧
    (w &&& 0xF0FF = 0xF055 → decode cfg w = .storeRegs (opX w)) ∧
    (w &&& 0xF0FF = 0xF065 → decode cfg w = .loadRegs (opX w))

/-! ### The tick -/

/-- A tick of a core that is not halted, with pc in range, runs the instruction that the big-endian word at pc decodes
to, then counts both timers down unless the tick faulted; the random draw is used up and a tick has run (log entry 12). -/
def Obligations.StepRunsDecodedInstruction : Prop :=
  ∀ (s t : State) (i : Instr), s.fault.code = .none → s.pc.toNat ≤ 0x0FFE →
    decode s.cfg (BitVec.ofNat 16 (256 * (s.byteAt s.pc.toNat).toNat + (s.byteAt (s.pc.toNat + 1)).toNat)) = i →
    exec i s = .next t →
    step s = .next
      { t with
        dt := if t.fault.code = .none then BitVec.ofNat 8 (t.dt.toNat - 1) else t.dt
        st := if t.fault.code = .none then BitVec.ofNat 8 (t.st.toNat - 1) else t.st
        rndIn := none, draws := t.draws + 1, ticked := true }

/-- A fetch with pc above 0xFFE raises FETCH_OUT_OF_RANGE(info = pc) and changes nothing else but the bookkeeping of
inputs (R81's fetch check, decision D8; rndIn, draws, ticked: log entry 12). -/
def Obligations.FetchOutOfRangeFaults : Prop :=
  ∀ s : State, s.fault.code = .none → 0x0FFE < s.pc.toNat →
    step s = .next
      { s with fault := ⟨.fetchOutOfRange, s.pc, s.pc⟩, rndIn := none, draws := s.draws + 1, ticked := true }

/-- While FAULT.code is not 0 a tick changes nothing, for any number of ticks (R243, decision D6). -/
def Obligations.HaltedCoreNeverChanges : Prop :=
  ∀ (s : State) (k : Nat), s.fault.code ≠ .none → step s = .next s ∧ State.ticks k s = s

/-- Every tick answers a next state: no instruction, word or operand stops the machine. -/
def Obligations.EveryTickAnswersNext : Prop :=
  (∀ (i : Instr) (s : State), ∃ t, exec i s = .next t) ∧ ∀ s : State, ∃ t, step s = .next t

/-- R223: after a tick that did not fault each timer is what the handler left less 1, but never below 0; on a tick
that faults and while halted the timers do not count down; and a timer set to n ≥ 1 by the instruction of a tick holds
n - 1 - j at the end of the j-th tick after it, if those ticks complete and set it to nothing else. -/
def Obligations.TimersCountDownEachCompletedTick : Prop :=
  (∀ s u : State, s.fault.code = .none → step s = .next u → u.fault.code = .none →
    ∃ i t, s.nextInstr = some i ∧ exec i s = .next t ∧
      u.dt.toNat = t.dt.toNat - 1 ∧ u.st.toNat = t.st.toNat - 1) ∧
  (∀ s u : State, step s = .next u → u.fault.code ≠ .none → u.dt = s.dt ∧ u.st = s.st) ∧
  (∀ (s : State) (x : RegIx) (j : Nat), s.nextInstr = some (.ldDtVx x) → 1 ≤ (s.getV x).toNat →
    j ≤ (s.getV x).toNat - 1 → (State.ticks (1 + j) s).fault.code = .none →
    (∀ m y, m < j → (State.ticks (1 + m) s).nextInstr ≠ some (.ldDtVx y)) →
    (State.ticks (1 + j) s).dt.toNat = (s.getV x).toNat - 1 - j) ∧
  (∀ (s : State) (x : RegIx) (j : Nat), s.nextInstr = some (.ldStVx x) → 1 ≤ (s.getV x).toNat →
    j ≤ (s.getV x).toNat - 1 → (State.ticks (1 + j) s).fault.code = .none →
    (∀ m y, m < j → (State.ticks (1 + m) s).nextInstr ≠ some (.ldStVx y)) →
    (State.ticks (1 + j) s).st.toNat = (s.getV x).toNat - 1 - j)

/-! ### Faults -/

/-- A fault is precise, and each code is raised for its cause alone with its info (R241, R242, decisions D6, D7). -/
def Obligations.FaultsArePreciseAndCaused : Prop :=
  ∀ (i : Instr) (s t : State), s.fault.code = .none → exec i s = .next t → t.fault.code ≠ .none →
    t = { s with fault := ⟨t.fault.code, s.pc, t.fault.info⟩ } ∧
    ((t.fault.code = .stackOverflow ∧ (∃ nnn, i = .call nnn) ∧ s.sp = 16 ∧ t.fault.info = 0) ∨
     (t.fault.code = .stackUnderflow ∧ i = .ret ∧ s.sp = 0 ∧ t.fault.info = 0) ∨
     (t.fault.code = .memOutOfRange ∧
       ∃ n, dataBytes i = some n ∧ 0 < n ∧ 0x1000 < s.indexAddr + n ∧
         t.fault.info = BitVec.ofNat 16 (max s.indexAddr 0x1000)) ∨
     (t.fault.code = .keyOutOfRange ∧
       ∃ x, (i = .skp x ∨ i = .sknp x) ∧ 0x0F < (s.getV x).toNat ∧ t.fault.info.toNat = (s.getV x).toNat))

/-- Taking a fault restores the state of the start of the tick, and writes FAULT (decision D6); in every state the host
reads FAULT, its code as the number of R241's table (decision D7). rndIn, draws and ticked move as the model chose (log entry 12). -/
def Obligations.FaultTickKeepsAllElse : Prop :=
  (∀ s u : State, s.fault.code = .none → step s = .next u → u.fault.code ≠ .none →
    u = { s with fault := ⟨u.fault.code, s.pc, u.fault.info⟩, rndIn := none, draws := s.draws + 1, ticked := true } ∧
    hostReadFault u = (u.fault.code.toByte, s.pc, u.fault.info) ∧ 1 ≤ u.fault.code.toByte.toNat ∧
      u.fault.code.toByte.toNat ≤ 5) ∧
  ∀ u : State,
    (u.fault.code = .none → hostReadFault u = (0, u.fault.pc, u.fault.info)) ∧
    (u.fault.code = .stackOverflow → hostReadFault u = (1, u.fault.pc, u.fault.info)) ∧
    (u.fault.code = .stackUnderflow → hostReadFault u = (2, u.fault.pc, u.fault.info)) ∧
    (u.fault.code = .memOutOfRange → hostReadFault u = (3, u.fault.pc, u.fault.info)) ∧
    (u.fault.code = .keyOutOfRange → hostReadFault u = (4, u.fault.pc, u.fault.info)) ∧
    (u.fault.code = .fetchOutOfRange → hostReadFault u = (5, u.fault.pc, u.fault.info))

/-- EX9E and EXA1 with VX above 0x0F raise KEY_OUT_OF_RANGE with info VX zero-extended (R203, decision D11). -/
def Obligations.KeyIndexAboveFifteenFaults : Prop :=
  ∀ (s : State) (x : RegIx), 0x0F < (s.getV x).toNat →
    exec (.skp x) s = .next (raiseFault s ⟨.keyOutOfRange, BitVec.ofNat 16 (s.getV x).toNat⟩) ∧
    exec (.sknp x) s = .next (raiseFault s ⟨.keyOutOfRange, BitVec.ofNat 16 (s.getV x).toNat⟩)

/-! ### Control flow -/

/-- R100. -/
def Obligations.ClsClearsEveryPixel : Prop :=
  (∀ (cfg : Config) (w : Word), w &&& 0xF00F = 0x0000 → decode cfg w = .cls) ∧
  ∀ s : State, ∃ t, exec .cls s = .next t ∧ (∀ x y, t.fb.get x y = false) ∧
    t = { s with fb := t.fb, pc := s.pc + 2 }

/-- RET of 40_control_flow.md §2. How a raise is taken is decision D6 of the spec; the bound, code and info of the fetch
check of the last clause are its decision D8. -/
def Obligations.RetPopsReturnAddress : Prop :=
  (∀ (cfg : Config) (w : Word), w &&& 0xF00F = 0x000E → decode cfg w = .ret) ∧
  (∀ (s : State) (k : Fin 16), s.sp.val = k.val + 1 →
    ∃ t, exec .ret s = .next t ∧ t.sp.val = k.val ∧ t.pc = s.stack[k] ∧ t = { s with sp := t.sp, pc := t.pc }) ∧
  (∀ s : State, s.sp = 0 → exec .ret s = .next (raiseFault s ⟨.stackUnderflow, 0⟩)) ∧
  (∀ (s : State) (k : Fin 16), s.fault.code = .none → s.nextInstr = some .ret → s.sp.val = k.val + 1 →
    0x0FFE < (s.stack[k]).toNat → (State.ticks 2 s).fault = ⟨.fetchOutOfRange, s.stack[k], s.stack[k]⟩)

/-- JP of 40_control_flow.md §2, with the fetch after a jump to 0xFFF (FETCH_OUT_OF_RANGE is decision D8 of the spec) and
the tick of a jump to itself. In that tick rndIn, draws and ticked move as the model chose (log entry 12). -/
def Obligations.JpSetsPc : Prop :=
  (∀ (cfg : Config) (w : Word), w &&& 0xF000 = 0x1000 → decode cfg w = .jp (opNNN w)) ∧
  (∀ (s : State) (nnn : BitVec 12), ∃ t, exec (.jp nnn) s = .next t ∧ t.pc.toNat = nnn.toNat ∧
    t = { s with pc := t.pc }) ∧
  (∀ s : State, s.fault.code = .none → s.nextInstr = some (.jp 0xFFF) →
    (State.ticks 2 s).fault = ⟨.fetchOutOfRange, 0x0FFF, 0x0FFF⟩) ∧
  (∀ (s : State) (nnn : BitVec 12), s.fault.code = .none → s.nextInstr = some (.jp nnn) → nnn.toNat = s.pc.toNat →
    step s = .next
      { s with
        dt := BitVec.ofNat 8 (s.dt.toNat - 1), st := BitVec.ofNat 8 (s.st.toNat - 1)
        rndIn := none, draws := s.draws + 1, ticked := true })

/-- R103. How a raise is taken is decision D6 of the spec. -/
def Obligations.CallPushesReturnAddress : Prop :=
  (∀ (cfg : Config) (w : Word), w &&& 0xF000 = 0x2000 → decode cfg w = .call (opNNN w)) ∧
  (∀ (s : State) (nnn : BitVec 12) (k : Fin 16), s.sp.val = k.val →
    ∃ t, exec (.call nnn) s = .next t ∧ t.stack[k] = s.pc + 2 ∧ (∀ j : Fin 16, j ≠ k → t.stack[j] = s.stack[j]) ∧
      t.sp.val = k.val + 1 ∧ t.pc.toNat = nnn.toNat ∧ t = { s with stack := t.stack, sp := t.sp, pc := t.pc }) ∧
  (∀ (s : State) (nnn : BitVec 12), s.sp = 16 → exec (.call nnn) s = .next (raiseFault s ⟨.stackOverflow, 0⟩))

/-- JP V0 of 40_control_flow.md §2: no 16-bit wrap occurs, and a target above 0xFFE faults at the next fetch, whose bound,
code and info are decision D8 of the spec. -/
def Obligations.JpVZeroAddsVZero : Prop :=
  (∀ (cfg : Config) (w : Word), w &&& 0xF000 = 0xB000 → decode cfg w = .jpV0 (opNNN w)) ∧
  (∀ (s : State) (nnn : BitVec 12), ∃ t, exec (.jpV0 nnn) s = .next t ∧
    t.pc.toNat = nnn.toNat + (s.getV 0).toNat ∧ t.pc.toNat ≤ 0x10FE ∧ t = { s with pc := t.pc }) ∧
  (∀ (s : State) (nnn : BitVec 12), s.fault.code = .none → s.nextInstr = some (.jpV0 nnn) →
    0x0FFE < nnn.toNat + (s.getV 0).toNat →
    (State.ticks 2 s).fault.code = .fetchOutOfRange ∧
      (State.ticks 2 s).fault.info.toNat = nnn.toNat + (s.getV 0).toNat)

/-- R109, with the conditions of the six conditional skips (R104 to R107, and R200, R201 with a key index in range). -/
def Obligations.SkipsAdvanceByTwoMore : Prop :=
  ∀ (s : State) (x y : RegIx) (nn : Byte),
    exec (.seImm x nn) s = .next { s with pc := if s.getV x = nn then s.pc + 4 else s.pc + 2 } ∧
    exec (.sneImm x nn) s = .next { s with pc := if s.getV x = nn then s.pc + 2 else s.pc + 4 } ∧
    exec (.seReg x y) s = .next { s with pc := if s.getV x = s.getV y then s.pc + 4 else s.pc + 2 } ∧
    exec (.sneReg x y) s = .next { s with pc := if s.getV x = s.getV y then s.pc + 2 else s.pc + 4 } ∧
    ∀ k : Fin 16, (s.getV x).toNat = k.val →
      exec (.skp x) s = .next { s with pc := if s.keys.getLsbD k.val = true then s.pc + 4 else s.pc + 2 } ∧
      exec (.sknp x) s = .next { s with pc := if s.keys.getLsbD k.val = true then s.pc + 2 else s.pc + 4 }

/-- R79: an unknown opcode is a no-op beyond the pc advance, and the tick still counts the timers down (decision D18);
rndIn, draws and ticked move as the model chose (log entry 12). -/
def Obligations.UnknownOpcodeOnlyAdvances : Prop :=
  ∀ (s : State) (w : Word), exec (.unknown w) s = .next { s with pc := s.pc + 2 } ∧
    (s.fault.code = .none → s.nextInstr = some (.unknown w) →
      step s = .next
        { s with
          pc := s.pc + 2, dt := BitVec.ofNat 8 (s.dt.toNat - 1), st := BitVec.ofNat 8 (s.st.toNat - 1)
          rndIn := none, draws := s.draws + 1, ticked := true })

/-! ### Arithmetic and logic -/

/-- R130. -/
def Obligations.LdImmLoadsByte : Prop :=
  (∀ (cfg : Config) (w : Word), w &&& 0xF000 = 0x6000 → decode cfg w = .ldImm (opX w) (opNN w)) ∧
  ∀ (s : State) (x : RegIx) (nn : Byte), ∃ t, exec (.ldImm x nn) s = .next t ∧ t.getV x = nn ∧
    (∀ q, q ≠ x → t.getV q = s.getV q) ∧ t = { s with v := t.v, pc := s.pc + 2 }

/-- R131 to R135: ADD immediate wraps modulo 256; LD, OR, AND and XOR act on the registers' bits; VF is written by
none of them unless X = F (that VF is kept is the spec's derivation from "direct", and 7's family value is derived). -/
def Obligations.RegisterOpsWriteVxAlone : Prop :=
  ∀ (s : State) (x y : RegIx) (nn : Byte),
    (∃ t, exec (.addImm x nn) s = .next t ∧ (t.getV x).toNat = ((s.getV x).toNat + nn.toNat) % 256 ∧
      (∀ q, q ≠ x → t.getV q = s.getV q) ∧ t = { s with v := t.v, pc := s.pc + 2 }) ∧
    (∃ t, exec (.ldReg x y) s = .next t ∧ t.getV x = s.getV y ∧
      (∀ q, q ≠ x → t.getV q = s.getV q) ∧ t = { s with v := t.v, pc := s.pc + 2 }) ∧
    (∃ t, exec (.orReg x y) s = .next t ∧
      (∀ k, (t.getV x).getLsbD k = ((s.getV x).getLsbD k || (s.getV y).getLsbD k)) ∧
      (∀ q, q ≠ x → t.getV q = s.getV q) ∧ t = { s with v := t.v, pc := s.pc + 2 }) ∧
    (∃ t, exec (.andReg x y) s = .next t ∧
      (∀ k, (t.getV x).getLsbD k = ((s.getV x).getLsbD k && (s.getV y).getLsbD k)) ∧
      (∀ q, q ≠ x → t.getV q = s.getV q) ∧ t = { s with v := t.v, pc := s.pc + 2 }) ∧
    (∃ t, exec (.xorReg x y) s = .next t ∧
      (∀ k, (t.getV x).getLsbD k = ((s.getV x).getLsbD k ^^ (s.getV y).getLsbD k)) ∧
      (∀ q, q ≠ x → t.getV q = s.getV q) ∧ t = { s with v := t.v, pc := s.pc + 2 })

/-- R136, R137, R138: add with carry, subtract with NOT borrow, reverse subtract with SUBN_EQ_VF at equality, on
integers, for all registers and every VF_DEST (decisions D14, D32). -/
def Obligations.AddSubWriteFlagAndResult : Prop :=
  ∀ x y : RegIx,
    CommitsFlag (.addReg x y) x y (fun _ a b => if a + b > 255 then 1 else 0) (fun a b => (a + b) % 256) ∧
    CommitsFlag (.subReg x y) x y (fun _ a b => if b > a then 0 else 1) (fun a b => (a + 256 - b) % 256) ∧
    CommitsFlag (.subnReg x y) x y
      (fun cfg a b => if b > a then 1 else if a = b then (if cfg.subnEqVf then 1 else 0) else 0)
      (fun a b => (b + 256 - a) % 256)

/-- R139, R140: the shifts by one, with the bit shifted out as flag; VY is never read (D14 for X = F). -/
def Obligations.ShiftsWriteBitShiftedOut : Prop :=
  ∀ x : RegIx,
    CommitsFlag (.shr x) x x (fun _ a _ => a % 2) (fun a _ => a / 2) ∧
    CommitsFlag (.shl x) x x (fun _ a _ => a / 128) (fun a _ => 2 * a % 256)

/-- R141: the tick's draw, whatever it is, masked by NN; under CXNN_MODE = noop nothing but the advance (decision
D15; the draw is the free value of log entry 1 where the host hands none). -/
def Obligations.RndMasksTheDraw : Prop :=
  ∀ (s : State) (x : RegIx) (nn : Byte),
    (s.cfg.cxnnMode = .random → ∃ t, exec (.rnd x nn) s = .next t ∧
      (∀ b, s.rndIn = some b → t.getV x = b &&& nn) ∧
      (s.rndIn = none → t.getV x = Config.freeDraw s.draws &&& nn) ∧
      (∀ q, q ≠ x → t.getV q = s.getV q) ∧ t = { s with v := t.v, pc := s.pc + 2 }) ∧
    (s.cfg.cxnnMode = .noop → exec (.rnd x nn) s = .next { s with pc := s.pc + 2 })

/-! ### Index register and memory -/

/-- MemRead and MemWrite of 20_memory.md §1 on any address, and what a read gives after a write; a raise ends the tick
with no state change but FAULT; the fetch has its own check. How a raise is taken is decision D6 of the spec; the bound,
code and info of the fetch check are its decision D8. -/
def Obligations.MemoryAccessIsChecked : Prop :=
  (∀ (s : State) (a : Nat) (b : Byte), s.memWf →
    (a ≤ 0xFFF → memRead s a = .ok (s.byteAt a) ∧
      ∃ t, memWrite s a b = .ok t ∧ memRead t a = .ok b ∧ t.memWf ∧
        (∀ c, c ≠ a → t.byteAt c = s.byteAt c) ∧ t = { s with mem := t.mem }) ∧
    (0xFFF < a →
      memRead s a = .error ⟨.memOutOfRange, BitVec.ofNat 16 a⟩ ∧
      memWrite s a b = .error ⟨.memOutOfRange, BitVec.ofNat 16 a⟩)) ∧
  (∀ (s : State) (h : Handler) (r : Raise), h s.advance = .error r →
    runHandler h s = .next { s with fault := ⟨r.code, s.pc, r.info⟩ }) ∧
  (∀ s : State, 0x0FFE < s.pc.toNat → fetch s = .error ⟨.fetchOutOfRange, s.pc⟩)

/-- R160. -/
def Obligations.LdISetsIndex : Prop :=
  (∀ (cfg : Config) (w : Word), w &&& 0xF000 = 0xA000 → decode cfg w = .ldI (opNNN w)) ∧
  ∀ (s : State) (nnn : BitVec 12), ∃ t, exec (.ldI nnn) s = .next t ∧ t.i.toNat = nnn.toNat ∧
    t = { s with i := t.i, pc := s.pc + 2 }

/-- R161, R162: ADD I wraps modulo 65536 with no flag and no mask (D10); LD F gives the glyph's address, inside the
font region (derived in R162). -/
def Obligations.IndexArithmetic : Prop :=
  ∀ (s : State) (x : RegIx),
    (∃ t, exec (.addI x) s = .next t ∧ t.i.toNat = (s.i.toNat + (s.getV x).toNat) % 65536 ∧
      t = { s with i := t.i, pc := s.pc + 2 }) ∧
    (∃ t, exec (.ldF x) s = .next t ∧ t.i.toNat = s.cfg.fontBase.val + 5 * ((s.getV x).toNat % 16) ∧
      s.cfg.fontBase.val ≤ t.i.toNat ∧ t.i.toNat + 4 < s.cfg.fontBase.val + 80 ∧ t.i.toNat + 4 < 0x200 ∧
      t = { s with i := t.i, pc := s.pc + 2 })

/-- R163: the three digits go to I, I+1, I+2 and nowhere else; with one of them above 0xFFF the first such address is
reported and nothing is written. How a raise is taken is decision D6 of the spec. -/
def Obligations.LdBStoresDigits : Prop :=
  (∀ (cfg : Config) (w : Word), w &&& 0xF0FF = 0xF033 → decode cfg w = .ldB (opX w)) ∧
  ∀ (s : State) (x : RegIx),
    (s.memWf → s.indexAddr + 2 ≤ 0xFFF → ∃ t, exec (.ldB x) s = .next t ∧
      (t.byteAt s.indexAddr).toNat = (s.getV x).toNat / 100 ∧
      (t.byteAt (s.indexAddr + 1)).toNat = (s.getV x).toNat / 10 % 10 ∧
      (t.byteAt (s.indexAddr + 2)).toNat = (s.getV x).toNat % 10 ∧
      (∀ a, (a < s.indexAddr ∨ s.indexAddr + 2 < a) → t.byteAt a = s.byteAt a) ∧
      t = { s with mem := t.mem, pc := s.pc + 2 }) ∧
    (∀ k, k ≤ 2 → 0xFFF < s.indexAddr + k → (∀ j, j < k → s.indexAddr + j ≤ 0xFFF) →
      exec (.ldB x) s = .next (raiseFault s ⟨.memOutOfRange, BitVec.ofNat 16 (s.indexAddr + k)⟩))

/-- R164: V0..VX go to I..I+X and nowhere else, I unchanged (D17); out of range, the first address above 0xFFF is
reported and nothing is written. -/
def Obligations.StoreRegsDumpsBlock : Prop :=
  ∀ (s : State) (x : RegIx),
    (s.memWf → s.indexAddr + x.val ≤ 0xFFF → ∃ t, exec (.storeRegs x) s = .next t ∧
      (∀ k : RegIx, k ≤ x → t.byteAt (s.indexAddr + k.val) = s.getV k) ∧
      (∀ a, (a < s.indexAddr ∨ s.indexAddr + x.val < a) → t.byteAt a = s.byteAt a) ∧
      t = { s with mem := t.mem, pc := s.pc + 2 }) ∧
    (0xFFF < s.indexAddr + x.val →
      exec (.storeRegs x) s = .next (raiseFault s ⟨.memOutOfRange, BitVec.ofNat 16 (max s.indexAddr 0x1000)⟩))

/-- R165: the bytes at I..I+X go to V0..VX, and no other register or byte changes (D17). -/
def Obligations.LoadRegsLoadsBlock : Prop :=
  ∀ (s : State) (x : RegIx),
    (s.indexAddr + x.val ≤ 0xFFF → ∃ t, exec (.loadRegs x) s = .next t ∧
      (∀ k : RegIx, k ≤ x → t.getV k = s.byteAt (s.indexAddr + k.val)) ∧
      (∀ k : RegIx, x < k → t.getV k = s.getV k) ∧
      t = { s with v := t.v, pc := s.pc + 2 }) ∧
    (0xFFF < s.indexAddr + x.val →
      exec (.loadRegs x) s = .next (raiseFault s ⟨.memOutOfRange, BitVec.ofNat 16 (max s.indexAddr 0x1000)⟩))

/-- R275: the bytes FX55 writes over the next instruction are the opcode the next tick fetches (D20). -/
def Obligations.StoredBytesAreFetchedNext : Prop :=
  ∀ (s t : State) (x j k : RegIx), s.memWf → exec (.storeRegs x) s = .next t → s.indexAddr + x.val ≤ 0xFFF →
    s.pc.toNat ≤ 0xFFC → k ≤ x → j.val + 1 = k.val → s.pc.toNat + 2 = s.indexAddr + j.val →
    t.nextInstr = some (decode s.cfg (BitVec.ofNat 16 (256 * (s.getV j).toNat + (s.getV k).toNat)))

/-! ### Draw -/

/-- R180 to R185: a draw in range toggles exactly the pixels a set sprite bit lands on and sets VF to whether one of
them was lit, under either DRAW_EDGE (decisions D12, D13; the bit order of R184 is general knowledge). -/
def Obligations.DrwTogglesCoveredPixels : Prop :=
  ∀ (s : State) (x y : RegIx) (n : BitVec 4), (n = 0 ∨ s.indexAddr + n.toNat ≤ 0x1000) →
    ∃ t, exec (.drw x y n) s = .next t ∧
      (∀ px py, s.covers x y n px py → t.fb.get px py = !(s.fb.get px py)) ∧
      (∀ px py, ¬ s.covers x y n px py → t.fb.get px py = s.fb.get px py) ∧
      ((∃ px py, s.covers x y n px py ∧ s.fb.get px py = true) → t.getV vf = 1) ∧
      ((¬ ∃ px py, s.covers x y n px py ∧ s.fb.get px py = true) → t.getV vf = 0) ∧
      (∀ q, q ≠ vf → t.getV q = s.getV q) ∧
      t = { s with fb := t.fb, v := t.v, pc := s.pc + 2 }

/-- R180: a row above 0xFFF faults with the first such address, clipped or not, and nothing is drawn (D13). -/
def Obligations.DrwOutOfRangeFaults : Prop :=
  ∀ (s : State) (x y : RegIx) (n : BitVec 4), n ≠ 0 → 0x1000 < s.indexAddr + n.toNat →
    exec (.drw x y n) s = .next (raiseFault s ⟨.memOutOfRange, BitVec.ofNat 16 (max s.indexAddr 0x1000)⟩)

/-- The origin of 43_draw.md §1: it is (VX mod 64, VY mod 32), where the sprite's first bit lands, and a draw depends on
VX and VY through it alone. That the first bit is bit 7 of the byte is R184's bit order, general knowledge in the spec
(log entry 21); that for X = F or Y = F the origin is read before VF is reset is decision D13 of the spec. -/
def Obligations.DrwOriginWrapsOnEntry : Prop :=
  ∀ (s : State) (x y : RegIx) (n : BitVec 4) (px : Fin 64) (py : Fin 32),
    (px.val = (s.getV x).toNat % 64 → py.val = (s.getV y).toNat % 32 → n ≠ 0 → s.indexAddr + n.toNat ≤ 0x1000 →
      ∃ t, exec (.drw x y n) s = .next t ∧
        t.fb.get px py = (s.fb.get px py ^^ (s.byteAt s.indexAddr).getLsbD 7)) ∧
    (∀ s' : State, s' = { s with v := s'.v } → (s'.getV x).toNat % 64 = (s.getV x).toNat % 64 →
      (s'.getV y).toNat % 32 = (s.getV y).toNat % 32 →
      ∃ t t', exec (.drw x y n) s = .next t ∧ exec (.drw x y n) s' = .next t' ∧
        t'.fb = t.fb ∧ t'.fault = t.fault ∧
        ((n = 0 ∨ s.indexAddr + n.toNat ≤ 0x1000) → t'.getV vf = t.getV vf))

/-- R186: drawing the same sprite twice restores every pixel, and the second VF is 1 exactly when a kept sprite bit
landed on a pixel that was unlit before the first draw (the spec's derivation; the bit order of R184 is general
knowledge in the spec, log entry 21). -/
def Obligations.DoubleDrawRestoresFramebuffer : Prop :=
  ∀ (s : State) (x y : RegIx) (n : BitVec 4), x ≠ vf → y ≠ vf → (n = 0 ∨ s.indexAddr + n.toNat ≤ 0x1000) →
    ∃ t u, exec (.drw x y n) s = .next t ∧ exec (.drw x y n) t = .next u ∧ u.fb = s.fb ∧
      (u.getV vf = 1 ↔ ∃ px py, s.covers x y n px py ∧ s.fb.get px py = false) ∧
      (u.getV vf = 0 ∨ u.getV vf = 1)

/-! ### Keypad and timers -/

/-- R202: with a key pressed, FX0A stores the lowest or highest pressed key (D16); with none, the tick's net pc change
is zero. -/
def Obligations.LdKWaitsForKey : Prop :=
  ∀ (s : State) (x : RegIx),
    (s.keys ≠ 0 → ∃ t k, exec (.ldVxK x) s = .next t ∧ (t.getV x).toNat = (k : Fin 16).val ∧
      s.keys.getLsbD k.val = true ∧
      (s.cfg.keyScanOrder = .lowest → ∀ j : Fin 16, s.keys.getLsbD j.val = true → k ≤ j) ∧
      (s.cfg.keyScanOrder = .highest → ∀ j : Fin 16, s.keys.getLsbD j.val = true → j ≤ k) ∧
      (∀ q, q ≠ x → t.getV q = s.getV q) ∧ t = { s with v := t.v, pc := s.pc + 2 }) ∧
    (s.keys = 0 → exec (.ldVxK x) s = .next s)

/-- R220, R221, R222: the timers are read and written before the tick's countdown, which then takes 1 off. -/
def Obligations.TimerRegistersMove : Prop :=
  ∀ (s : State) (x : RegIx),
    (∃ t, exec (.ldVxDt x) s = .next t ∧ t.getV x = s.dt ∧ (∀ q, q ≠ x → t.getV q = s.getV q) ∧
      t = { s with v := t.v, pc := s.pc + 2 }) ∧
    exec (.ldDtVx x) s = .next { s with dt := s.getV x, pc := s.pc + 2 } ∧
    exec (.ldStVx x) s = .next { s with st := s.getV x, pc := s.pc + 2 } ∧
    (s.fault.code = .none → s.nextInstr = some (.ldVxDt x) →
      ∃ u, step s = .next u ∧ u.getV x = s.dt ∧ u.dt.toNat = s.dt.toNat - 1) ∧
    (s.fault.code = .none → s.nextInstr = some (.ldDtVx x) →
      ∃ u, step s = .next u ∧ u.dt.toNat = (s.getV x).toNat - 1) ∧
    (s.fault.code = .none → s.nextInstr = some (.ldStVx x) →
      ∃ u, step s = .next u ∧ u.st.toNat = (s.getV x).toNat - 1)

/-! ### Whole-machine rules -/

/-- A general register changes only if it is the instruction's destination, VF of a flag-writing instruction or of a
draw, or one of FX65's block (R21, R22, R23). -/
def Obligations.RegistersChangeOnlyAsDestinations : Prop :=
  ∀ (i : Instr) (s t : State) (q : RegIx), exec i s = .next t → t.getV q ≠ s.getV q → mayWriteV q i = true

/-- I is written by ANNN, FX1E and FX29 alone, SP by 2NNN and 00EE, DT by FX15, ST by FX18 (before the countdown), and
the inputs, the parameters and the host's bookkeeping by none (R24, R27, R28, R29, R33). -/
def Obligations.ControlRegistersHaveTheirWriters : Prop :=
  ∀ (i : Instr) (s t : State), exec i s = .next t →
    (t.i ≠ s.i → (∃ nnn, i = .ldI nnn) ∨ (∃ x, i = .addI x) ∨ ∃ x, i = .ldF x) ∧
    (t.sp ≠ s.sp → i = .ret ∨ ∃ nnn, i = .call nnn) ∧
    (t.dt ≠ s.dt → ∃ x, i = .ldDtVx x) ∧
    (t.st ≠ s.st → ∃ x, i = .ldStVx x) ∧
    t.keys = s.keys ∧ t.cfg = s.cfg ∧ t.rndIn = s.rndIn ∧ t.draws = s.draws ∧ t.loaded = s.loaded ∧
      t.ticked = s.ticked

/-- R51: the fetch reads two bytes at pc; DXYN reads N bytes at I; FX65 reads X+1 bytes at I; FX33 writes 3 bytes at I;
FX55 writes X+1 bytes at I, and neither depends on what memory holds; no other instruction reads or writes memory: with
any memory in place of its own it does the same and leaves that memory. -/
def Obligations.OnlyListedInstructionsAccessMemory : Prop :=
  (∀ (i : Instr) (s t : State) (m : Memory), dataBytes i = none → exec i s = .next t →
    exec i { s with mem := m } = .next { t with mem := m }) ∧
  (∀ (i : Instr) (s t : State) (m : Memory) (n : Nat),
    (∃ x y h, i = .drw x y h ∧ n = h.toNat) ∨ (∃ x, i = .loadRegs x ∧ n = x.val + 1) →
    (∀ k, k < n → State.byteAt { s with mem := m } (s.indexAddr + k) = s.byteAt (s.indexAddr + k)) →
    exec i s = .next t → exec i { s with mem := m } = .next { t with mem := m }) ∧
  (∀ (i : Instr) (s t : State) (n : Nat),
    (∃ x, i = .ldB x ∧ n = 3) ∨ (∃ x, i = .storeRegs x ∧ n = x.val + 1) → s.memWf → exec i s = .next t →
    ∀ a, (a < s.indexAddr ∨ s.indexAddr + n ≤ a) → t.byteAt a = s.byteAt a) ∧
  (∀ (i : Instr) (s t : State) (m : Memory), (∃ x, i = .ldB x) ∨ (∃ x, i = .storeRegs x) → exec i s = .next t →
    ∃ t', exec i { s with mem := m } = .next t' ∧ t' = { t with mem := t'.mem }) ∧
  (∀ (s : State) (m : Memory),
    State.byteAt { s with mem := m } s.pc.toNat = s.byteAt s.pc.toNat →
    State.byteAt { s with mem := m } (s.pc.toNat + 1) = s.byteAt (s.pc.toNat + 1) →
    fetch { s with mem := m } = fetch s)

/-- R60: the framebuffer and the keypad are apart from memory: no memory access reaches them; every instruction but
00E0 and DXYN does the same with any framebuffer in place and leaves that framebuffer; every instruction but EX9E, EXA1
and FX0A does the same with any keypad input, and none writes it. -/
def Obligations.FramebufferAndKeypadAreApart : Prop :=
  (∀ (i : Instr) (s t : State) (f : Framebuffer), i ≠ .cls → (∀ x y n, i ≠ .drw x y n) → exec i s = .next t →
    exec i { s with fb := f } = .next { t with fb := f }) ∧
  (∀ (i : Instr) (s t : State) (k : BitVec 16), (∀ x, i ≠ .skp x ∧ i ≠ .sknp x ∧ i ≠ .ldVxK x) → exec i s = .next t →
    exec i { s with keys := k } = .next { t with keys := k }) ∧
  (∀ (s t : State) (a : Nat) (b : Byte), memWrite s a b = .ok t → t.fb = s.fb ∧ t.keys = s.keys) ∧
  (∀ (s : State) (a : Nat) (f : Framebuffer) (k : BitVec 16), memRead { s with fb := f, keys := k } a = memRead s a)

/-- R26: the stack is written by 2NNN alone and read by 00EE alone: any other instruction does the same with any stack
in place and leaves that stack; 2NNN does not depend on what the slots hold; 00EE changes no slot; and no memory access
reaches a slot. -/
def Obligations.StackIsReachedByCallAndRetAlone : Prop :=
  (∀ (i : Instr) (s t : State) (k : Vector Word 16), i ≠ .ret → (∀ nnn, i ≠ .call nnn) → exec i s = .next t →
    exec i { s with stack := k } = .next { t with stack := k }) ∧
  (∀ (s t : State) (nnn : BitVec 12) (k : Vector Word 16), exec (.call nnn) s = .next t →
    ∃ t', exec (.call nnn) { s with stack := k } = .next t' ∧ t' = { t with stack := t'.stack }) ∧
  (∀ s t : State, exec .ret s = .next t → t.stack = s.stack) ∧
  (∀ (s t : State) (a : Nat) (b : Byte), memWrite s a b = .ok t → t.stack = s.stack) ∧
  (∀ (s : State) (a : Nat) (k : Vector Word 16), memRead { s with stack := k } a = memRead s a)

/-- R28, and R29's registers likewise: DT is written by FX15 and read by FX07 alone, ST is written by FX18 and read by
no instruction: any other instruction does the same with any value in place and leaves it; and each is one less after a
completed tick than its handler left it, never below 0. -/
def Obligations.TimersAreReachedByTheirInstructionsAlone : Prop :=
  (∀ (i : Instr) (s t : State) (d : Byte), (∀ x, i ≠ .ldVxDt x ∧ i ≠ .ldDtVx x) → exec i s = .next t →
    exec i { s with dt := d } = .next { t with dt := d }) ∧
  (∀ (i : Instr) (s t : State) (d : Byte), (∀ x, i ≠ .ldStVx x) → exec i s = .next t →
    exec i { s with st := d } = .next { t with st := d }) ∧
  (∀ (s : State) (x : RegIx) (d : Byte),
    (∃ t, exec (.ldVxDt x) s = .next t ∧ t.getV x = s.dt ∧ t.dt = s.dt) ∧
    (∃ t, exec (.ldDtVx x) s = .next t ∧ t.dt = s.getV x) ∧
    (∃ t, exec (.ldStVx x) s = .next t ∧ t.st = s.getV x) ∧
    exec (.ldDtVx x) { s with dt := d } = exec (.ldDtVx x) s ∧
    exec (.ldStVx x) { s with st := d } = exec (.ldStVx x) s) ∧
  (∀ s u : State, s.fault.code = .none → step s = .next u → u.fault.code = .none →
    ∃ i t, s.nextInstr = some i ∧ exec i s = .next t ∧
      (t.dt = 0 → u.dt = 0) ∧ (t.dt ≠ 0 → u.dt.toNat + 1 = t.dt.toNat) ∧
      (t.st = 0 → u.st = 0) ∧ (t.st ≠ 0 → u.st.toNat + 1 = t.st.toNat))

/-! ### Invariants -/

/-- Every step keeps memory in its canonical form: equal memories stay equal data. -/
def Obligations.StepKeepsMemoryCanonical : Prop :=
  ∀ s t : State, s.memWf → step s = .next t → t.memWf

/-- Every step keeps FAULT in agreement with the state: the pc still addresses the faulting opcode and the state still
shows the cause (R30, R241, R242, decisions D6, D7). -/
def Obligations.StepKeepsFaultConsistent : Prop :=
  ∀ s t : State, s.faultConsistent → step s = .next t → t.faultConsistent

/-- Every step keeps pc at most 0x10FE and every return address at most 0x1000, so no 16-bit wrap of pc is reachable
(the derivation of D9). -/
def Obligations.StepKeepsPcBounded : Prop :=
  ∀ s t : State, s.pcBounded → step s = .next t → t.pcBounded

/-- The invariants hold after reset, under any parameters and after the host's reset. -/
def Obligations.ResetSatisfiesInvariants : Prop :=
  (∀ cfg : Config, (State.resetWith cfg).memWf ∧ (State.resetWith cfg).faultConsistent ∧
    (State.resetWith cfg).pcBounded) ∧
  (∀ s : State, (hostReset s).memWf ∧ (hostReset s).faultConsistent ∧ (hostReset s).pcBounded)

/-! ### Reset, load and the end of a run -/

/-- R36, R270: every piece of state after reset (the values other than pc, fb and the font region are decisions D2, D3,
D6 of the spec; the font's place and bytes D4, D5, here those of the parameters). Three clauses are the model's choice:
that no key is pressed after the host's reset of any state (log entry 18; D23 speaks of the time before the host's first
write), and that no draw is waiting and no tick is recorded (rndIn, ticked: log entry 12). -/
def Obligations.ResetSetsEveryPiece : Prop :=
  ∀ u : State, (u = State.reset ∨ ∃ s, u = hostReset s) →
    (∀ r, u.getV r = 0) ∧ u.i = 0 ∧ u.pc = 0x200 ∧ (∀ k : Fin 16, u.stack[k] = 0) ∧ u.sp = 0 ∧ u.dt = 0 ∧ u.st = 0 ∧
    (∀ k : Fin 80, u.byteAt (u.cfg.fontBase.val + k.val) = u.cfg.fontData[k]) ∧
    (∀ a, (a < u.cfg.fontBase.val ∨ u.cfg.fontBase.val + 80 ≤ a) → u.byteAt a = 0) ∧
    (∀ x y, u.fb.get x y = false) ∧ u.fault = ⟨.none, 0, 0⟩ ∧ u.keys = 0 ∧ u.rndIn = none ∧ u.loaded = false ∧
    u.ticked = false

/-- R7, R166: the parameters of the machine after reset are the default column of R7, and FONT_DATA, in the parameter
and in memory, is the conventional table of R166, glyphs 0 to F (the spec's general knowledge, decisions D4, D5, D12,
D14, D15, D16, D32; log entries 3 to 9). -/
def Obligations.ResetTakesDefaultParameters : Prop :=
  State.reset.cfg.fontBase.val = 0 ∧ State.reset.cfg.drawEdge = .clip ∧ State.reset.cfg.cxnnMode = .random ∧
  State.reset.cfg.vfDest = .result ∧ State.reset.cfg.subnEqVf = false ∧ State.reset.cfg.keyScanOrder = .lowest ∧
  State.reset.cfg.fontData.toList = (List.range 80).map State.reset.byteAt ∧
  (List.range 20).map State.reset.byteAt =
    [0xF0, 0x90, 0x90, 0x90, 0xF0] ++ [0x20, 0x60, 0x20, 0x20, 0x70] ++
    [0xF0, 0x10, 0xF0, 0x80, 0xF0] ++ [0xF0, 0x10, 0xF0, 0x10, 0xF0] ∧
  (List.range 20).map (fun k => State.reset.byteAt (20 + k)) =
    [0x90, 0x90, 0xF0, 0x10, 0x10] ++ [0xF0, 0x80, 0xF0, 0x10, 0xF0] ++
    [0xF0, 0x80, 0xF0, 0x90, 0xF0] ++ [0xF0, 0x10, 0x20, 0x40, 0x40] ∧
  (List.range 20).map (fun k => State.reset.byteAt (40 + k)) =
    [0xF0, 0x90, 0xF0, 0x90, 0xF0] ++ [0xF0, 0x90, 0xF0, 0x10, 0xF0] ++
    [0xF0, 0x90, 0xF0, 0x90, 0x90] ++ [0xE0, 0x90, 0xE0, 0x90, 0xE0] ∧
  (List.range 20).map (fun k => State.reset.byteAt (60 + k)) =
    [0xF0, 0x80, 0x80, 0x80, 0xF0] ++ [0xE0, 0x90, 0x90, 0x90, 0xE0] ++
    [0xF0, 0x80, 0xF0, 0x80, 0xF0] ++ [0xF0, 0x80, 0xF0, 0x80, 0x80]

/-- R273: load is admitted once, before any tick (D21); 3584 bytes at most are copied verbatim from 0x200 on; a longer
ROM changes nothing. -/
def Obligations.LoadCopiesRomOnce : Prop :=
  ∀ (s : State) (rom : List Byte),
    ((s.loaded = true ∨ s.ticked = true) → hostLoad rom s = (.notAdmitted, s)) ∧
    (s.loaded = false → s.ticked = false → 3584 < rom.length → hostLoad rom s = (.loadError, s)) ∧
    (s.loaded = false → s.ticked = false → rom.length ≤ 3584 → s.memWf →
      ∃ t, hostLoad rom s = (.ok, t) ∧
        (∀ k (h : k < rom.length), t.byteAt (0x200 + k) = rom[k]) ∧
        (∀ a, (a < 0x200 ∨ 0x200 + rom.length ≤ a) → t.byteAt a = s.byteAt a) ∧
        t.memWf ∧ t = { s with mem := t.mem, loaded := true })

/-- R279 (b): a core parked on a jump to itself stays parked, and every later tick leaves all state but DT and ST (and
the model's bookkeeping of inputs, left free here; log entry 12) unchanged (decision D28). -/
def Obligations.ParkedCoreStaysParked : Prop :=
  ∀ (s : State) (k : Nat), s.fault.code = .none → s.parked →
    (State.ticks k s).parked ∧
    State.ticks k s =
      { s with
        dt := BitVec.ofNat 8 (s.dt.toNat - k), st := BitVec.ofNat 8 (s.st.toNat - k)
        rndIn := (State.ticks k s).rndIn, draws := (State.ticks k s).draws, ticked := (State.ticks k s).ticked }

end
end

