-- ==== Sys2Proof/Laws/Draw.lean ====
section
/-! SUPPORT. The framebuffer's pixels, one plotted bit, and a whole sprite as the list of the pixels it lands on. -/

namespace Sys2Proof.Machine

/-- A pixel after a write: the value written, or what it was. -/
theorem Framebuffer.get_put (fb : Framebuffer) (x x' : Fin 64) (y y' : Fin 32) (p : Bool) :
    Framebuffer.get (Framebuffer.put fb x y p) x' y' = if x' = x ∧ y' = y then p else Framebuffer.get fb x' y' := by
  unfold Framebuffer.get Framebuffer.put
  simp only [Fin.getElem_fin, Vector.getElem_set]
  by_cases hx : x' = x
  · subst hx
    by_cases hy : y' = y
    · subst hy; simp
    · have : ¬ (y.val = y'.val) := fun e => hy (Fin.ext e.symm)
      simp [hy, this]
  · have : ¬ (x.val = x'.val) := fun e => hx (Fin.ext e.symm)
    simp [hx, this]

/-- Two framebuffers with the same pixels are the same. -/
theorem Framebuffer.ext_get {f g : Framebuffer} (h : ∀ x y, Framebuffer.get f x y = Framebuffer.get g x y) : f = g := by
  apply Vector.ext; intro x hx
  apply Vector.ext; intro y hy
  exact h ⟨x, hx⟩ ⟨y, hy⟩

/-! ### Plotting -/

@[simp] theorem Canvas.plot_none (c : Canvas) : c.plot none = c := rfl

/-- A plotted bit toggles its pixel and leaves every other pixel alone (R185). -/
theorem Canvas.plot_some_get (c : Canvas) (p q : Fin 64 × Fin 32) :
    (c.plot (some p)).fb.get q.1 q.2 = if q = p then !(c.fb.get p.1 p.2) else c.fb.get q.1 q.2 := by
  have hq : (q.1 = p.1 ∧ q.2 = p.2) ↔ q = p := Prod.ext_iff.symm
  cases hp : c.fb.get p.1 p.2 <;> simp [Canvas.plot, hp, Framebuffer.get_put, hq]

/-- The flag is set by a bit that lands on a lit pixel, and is never reset (R185). -/
theorem Canvas.plot_some_hit (c : Canvas) (p : Fin 64 × Fin 32) :
    (c.plot (some p)).hit = (c.hit || c.fb.get p.1 p.2) := by
  cases hp : c.fb.get p.1 p.2 <;> simp [Canvas.plot, hp]

/-- Bits plotted one after another. -/
def Canvas.plotAll (c : Canvas) (ps : List (Fin 64 × Fin 32)) : Canvas := ps.foldl (fun c p => c.plot (some p)) c

/-- Plotting distinct pixels toggles exactly those. -/
theorem Canvas.plotAll_get {ps : List (Fin 64 × Fin 32)} : ∀ (c : Canvas), ps.Nodup → ∀ q : Fin 64 × Fin 32,
    (c.plotAll ps).fb.get q.1 q.2 = if q ∈ ps then !(c.fb.get q.1 q.2) else c.fb.get q.1 q.2 := by
  induction ps with
  | nil => intro c _ q; simp [Canvas.plotAll]
  | cons p ps ih =>
    intro c hnd q
    rw [List.nodup_cons] at hnd
    have := ih (c.plot (some p)) hnd.2 q
    simp only [Canvas.plotAll, List.foldl_cons] at this ⊢
    rw [this, Canvas.plot_some_get]
    by_cases hq : q = p
    · subst hq; simp [hnd.1]
    · simp [hq]

/-- Plotting distinct pixels sets the flag exactly when one of them was lit. -/
theorem Canvas.plotAll_hit {ps : List (Fin 64 × Fin 32)} : ∀ (c : Canvas), ps.Nodup →
    ((c.plotAll ps).hit = true ↔ c.hit = true ∨ ∃ q ∈ ps, c.fb.get q.1 q.2 = true) := by
  induction ps with
  | nil => intro c _; simp [Canvas.plotAll]
  | cons p ps ih =>
    intro c hnd
    rw [List.nodup_cons] at hnd
    have := ih (c.plot (some p)) hnd.2
    simp only [Canvas.plotAll, List.foldl_cons] at this ⊢
    rw [this, Canvas.plot_some_hit]
    have hother : ∀ q ∈ ps, (c.plot (some p)).fb.get q.1 q.2 = c.fb.get q.1 q.2 := by
      intro q hq
      have : q ≠ p := fun e => hnd.1 (e ▸ hq)
      rw [Canvas.plot_some_get, if_neg this]
    constructor
    · rintro (h | ⟨q, hq, hl⟩)
      · rcases Bool.or_eq_true .. ▸ h with h | h
        · exact .inl h
        · exact .inr ⟨p, by simp, h⟩
      · exact .inr ⟨q, by simp [hq], hother q hq ▸ hl⟩
    · rintro (h | ⟨q, hq, hl⟩)
      · exact .inl (by simp [h])
      · rcases List.mem_cons.mp hq with rfl | hq
        · exact .inl (by simp [hl])
        · exact .inr ⟨q, hq, (hother q hq).symm ▸ hl⟩

/-! ### A sprite as the pixels it lands on -/

/-- The pixels the listed columns of a sprite row land on. -/
def rowTargets (e : DrawEdge) (x0 py : Nat) (b : Byte) (cs : List Nat) : List (Fin 64 × Fin 32) :=
  (cs.filter (spriteBit b)).filterMap fun c => edge e (x0 + c) py

/-- The pixels a sprite's rows land on, in drawing order. -/
def spriteTargets (e : DrawEdge) (x0 : Nat) : Nat → List Byte → List (Fin 64 × Fin 32)
  | _, [] => []
  | py, b :: bs => rowTargets e x0 py b [0, 1, 2, 3, 4, 5, 6, 7] ++ spriteTargets e x0 (py + 1) bs

theorem drawColumns_eq (e : DrawEdge) (x0 py : Nat) (b : Byte) (cs : List Nat) : ∀ cv : Canvas,
    drawColumns e x0 py b cs cv = cv.plotAll (rowTargets e x0 py b cs) := by
  induction cs with
  | nil => intro cv; rfl
  | cons c cs ih =>
    intro cv
    simp only [drawColumns, ih, rowTargets, List.filter_cons]
    cases hb : spriteBit b c
    · simp
    · cases he : edge e (x0 + c) py <;> simp [he, Canvas.plotAll]

/-- Drawing a sprite is plotting its pixels. -/
theorem drawRows_eq (e : DrawEdge) (x0 : Nat) (bs : List Byte) : ∀ (py : Nat) (cv : Canvas),
    drawRows e x0 py bs cv = cv.plotAll (spriteTargets e x0 py bs) := by
  induction bs with
  | nil => intro py cv; rfl
  | cons b bs ih =>
    intro py cv
    simp only [drawRows, drawRow, ih, drawColumns_eq, spriteTargets, Canvas.plotAll, List.foldl_append]

/-- The pixels of a sprite: where the edge rule puts the set bits of its rows. -/
theorem mem_spriteTargets {e : DrawEdge} {x0 : Nat} {q : Fin 64 × Fin 32} (bs : List Byte) : ∀ {py : Nat},
    q ∈ spriteTargets e x0 py bs ↔
      ∃ r c, r < bs.length ∧ c < 8 ∧ spriteBit (bs.getD r 0) c = true ∧ edge e (x0 + c) (py + r) = some q := by
  induction bs with
  | nil => intro py; simp [spriteTargets]
  | cons b bs ih =>
    intro py
    have hrow : q ∈ rowTargets e x0 py b [0, 1, 2, 3, 4, 5, 6, 7] ↔
        ∃ c, c < 8 ∧ spriteBit b c = true ∧ edge e (x0 + c) py = some q := by
      have h8 : ∀ c, c ∈ [0, 1, 2, 3, 4, 5, 6, 7] ↔ c < 8 := by intro c; simp; omega
      simp only [rowTargets, List.mem_filterMap, List.mem_filter, h8, and_assoc]
    simp only [spriteTargets, List.mem_append, hrow, ih]
    constructor
    · rintro (⟨c, hc, hb, he⟩ | ⟨r, c, hr, hc, hb, he⟩)
      · exact ⟨0, c, by simp, hc, by simpa using hb, by simpa using he⟩
      · exact ⟨r + 1, c, by simpa using hr, hc, by simpa using hb, by rwa [show py + (r + 1) = py + 1 + r by omega]⟩
    · rintro ⟨r, c, hr, hc, hb, he⟩
      cases r with
      | zero => exact .inl ⟨c, hc, by simpa using hb, by simpa using he⟩
      | succ r =>
        exact .inr ⟨r, c, by simpa using hr, hc, by simpa using hb, by rwa [show py + 1 + r = py + (r + 1) by omega]⟩

/-- Two bits of one sprite land on the same pixel only if they are the same bit (R183). -/
theorem edge_injective {e : DrawEdge} {x0 py c c' r r' : Nat} {q : Fin 64 × Fin 32} (hc : c < 8) (hc' : c' < 8)
    (hr : r < 32) (hr' : r' < 32) (h : edge e (x0 + c) (py + r) = some q) (h' : edge e (x0 + c') (py + r') = some q) :
    c = c' ∧ r = r' := by
  cases e
  · simp only [edge] at h h'
    split at h <;> split at h' <;> simp_all
    rw [← h] at h'
    simp only [Prod.mk.injEq, Fin.mk.injEq] at h'
    omega
  · simp only [edge, Option.some.injEq] at h h'
    rw [← h] at h'
    simp only [Prod.mk.injEq, Fin.mk.injEq] at h'
    omega

/-- No pixel is plotted twice in one draw (R183). -/
theorem spriteTargets_nodup (e : DrawEdge) (x0 : Nat) (bs : List Byte) : ∀ {py : Nat}, bs.length ≤ 32 →
    (spriteTargets e x0 py bs).Nodup := by
  induction bs with
  | nil => intro py _; exact List.nodup_nil
  | cons b bs ih =>
    intro py hlen
    simp only [List.length_cons] at hlen
    rw [spriteTargets, List.nodup_append]
    have h8 : ∀ c, c ∈ [0, 1, 2, 3, 4, 5, 6, 7].filter (spriteBit b) → c < 8 := by
      intro c hc; have := List.mem_of_mem_filter hc; simp at this; omega
    refine ⟨?_, ih (by omega), ?_⟩
    · rw [rowTargets, List.Nodup, List.pairwise_filterMap]
      refine List.Pairwise.imp_of_mem ?_ ((by decide : [0, 1, 2, 3, 4, 5, 6, 7].Nodup).filter _)
      rintro c c' hc hc' hne q hq q' hq' rfl
      exact hne (edge_injective (r := 0) (r' := 0) (h8 c hc) (h8 c' hc') (by omega) (by omega) hq hq').1
    · rintro q hq q' hq' rfl
      obtain ⟨c, hc, he⟩ := List.mem_filterMap.mp hq
      obtain ⟨r', c', hr', hc', -, he'⟩ := (mem_spriteTargets bs).mp hq'
      have he'' : edge e (x0 + c') (py + (r' + 1)) = some q := by
        rwa [show py + (r' + 1) = py + 1 + r' by omega]
      have := (edge_injective (r := 0) (h8 c hc) hc' (by omega) (by omega) he he'').2
      omega

/-- All a sprite draw does: it toggles exactly the pixels its set bits land on, and the flag says whether one of them
was lit (R180, R185). -/
theorem drawRows_spec (e : DrawEdge) (x0 py : Nat) {bs : List Byte} (hlen : bs.length ≤ 32) (fb : Framebuffer) :
    (∀ x y, (drawRows e x0 py bs ⟨fb, false⟩).fb.get x y =
      if (x, y) ∈ spriteTargets e x0 py bs then !(fb.get x y) else fb.get x y) ∧
    ((drawRows e x0 py bs ⟨fb, false⟩).hit = true ↔ ∃ q ∈ spriteTargets e x0 py bs, fb.get q.1 q.2 = true) := by
  have hnd := spriteTargets_nodup e x0 bs (py := py) hlen
  rw [drawRows_eq]
  exact ⟨fun x y => Canvas.plotAll_get _ hnd (x, y), by simpa using Canvas.plotAll_hit ⟨fb, false⟩ hnd⟩

end Sys2Proof.Machine
end

