-- ==== Sys2Proof/Laws/Encoding.lean ====
section
/-! SUPPORT. The fields of a word built in each format of R72, and a word as the join of its fields. -/

namespace Sys2Proof

/-! ### The bits of a word in each format -/

theorem getLsbD_wordA12 (f : BitVec 4) (nnn : BitVec 12) (i : Nat) :
    (wordA12 f nnn).getLsbD i = if i < 12 then nnn.getLsbD i else f.getLsbD (i - 12) :=
  BitVec.getLsbD_append (x := f) (y := nnn)

theorem getLsbD_wordXNN (f : BitVec 4) (x : RegIx) (nn : Byte) (i : Nat) :
    (wordXNN f x nn).getLsbD i =
      if i < 8 then nn.getLsbD i
      else if i - 8 < 4 then (BitVec.ofFin (w := 4) x).getLsbD (i - 8) else f.getLsbD (i - 8 - 4) :=
  (BitVec.getLsbD_append (x := f ++ BitVec.ofFin (w := 4) x) (y := nn)).trans (by rw [BitVec.getLsbD_append])

theorem getLsbD_wordXYN (f : BitVec 4) (x y : RegIx) (n : BitVec 4) (i : Nat) :
    (wordXYN f x y n).getLsbD i =
      if i < 4 then n.getLsbD i
      else if i - 4 < 4 then (BitVec.ofFin (w := 4) y).getLsbD (i - 4)
      else if i - 4 - 4 < 4 then (BitVec.ofFin (w := 4) x).getLsbD (i - 4 - 4) else f.getLsbD (i - 4 - 4 - 4) :=
  (BitVec.getLsbD_append (x := f ++ BitVec.ofFin (w := 4) x ++ BitVec.ofFin (w := 4) y) (y := n)).trans
    (by rw [BitVec.getLsbD_append, BitVec.getLsbD_append])

theorem getLsbD_wordOfBytes (hi lo : Byte) (i : Nat) :
    (wordOfBytes hi lo).getLsbD i = if i < 8 then lo.getLsbD i else hi.getLsbD (i - 8) :=
  BitVec.getLsbD_append (x := hi) (y := lo)

/-! ### Format A12 -/

@[simp] theorem family_wordA12 (f : BitVec 4) (nnn : BitVec 12) : family (wordA12 f nnn) = f := by
  apply BitVec.eq_of_getLsbD_eq; intro i hi
  simp only [family, getLsbD_wordA12, BitVec.getLsbD_extractLsb']
  interval_cases i <;> simp

@[simp] theorem fieldNNN_wordA12 (f : BitVec 4) (nnn : BitVec 12) : fieldNNN (wordA12 f nnn) = nnn := by
  apply BitVec.eq_of_getLsbD_eq; intro i hi
  simp only [fieldNNN, getLsbD_wordA12, BitVec.getLsbD_extractLsb']
  interval_cases i <;> simp

/-! ### Formats XNN and XSS -/

@[simp] theorem family_wordXNN (f : BitVec 4) (x : RegIx) (nn : Byte) : family (wordXNN f x nn) = f := by
  apply BitVec.eq_of_getLsbD_eq; intro i hi
  simp only [family, getLsbD_wordXNN, BitVec.getLsbD_extractLsb']
  interval_cases i <;> simp

@[simp] theorem fieldX_wordXNN (f : BitVec 4) (x : RegIx) (nn : Byte) : fieldX (wordXNN f x nn) = x := by
  have h : (wordXNN f x nn).extractLsb' 8 4 = BitVec.ofFin (w := 4) x := by
    apply BitVec.eq_of_getLsbD_eq; intro i hi
    simp only [getLsbD_wordXNN, BitVec.getLsbD_extractLsb']
    interval_cases i <;> simp
  simp only [fieldX, h]

@[simp] theorem fieldNN_wordXNN (f : BitVec 4) (x : RegIx) (nn : Byte) : fieldNN (wordXNN f x nn) = nn := by
  apply BitVec.eq_of_getLsbD_eq; intro i hi
  simp only [fieldNN, getLsbD_wordXNN, BitVec.getLsbD_extractLsb']
  interval_cases i <;> simp

@[simp] theorem fieldN_wordXNN (f : BitVec 4) (x : RegIx) (nn : Byte) :
    fieldN (wordXNN f x nn) = nn.extractLsb' 0 4 := by
  apply BitVec.eq_of_getLsbD_eq; intro i hi
  simp only [fieldN, getLsbD_wordXNN, BitVec.getLsbD_extractLsb']
  interval_cases i <;> simp

/-! ### Formats XY, XYS and XYN -/

@[simp] theorem family_wordXYN (f : BitVec 4) (x y : RegIx) (n : BitVec 4) : family (wordXYN f x y n) = f := by
  apply BitVec.eq_of_getLsbD_eq; intro i hi
  simp only [family, getLsbD_wordXYN, BitVec.getLsbD_extractLsb']
  interval_cases i <;> simp

@[simp] theorem fieldX_wordXYN (f : BitVec 4) (x y : RegIx) (n : BitVec 4) : fieldX (wordXYN f x y n) = x := by
  have h : (wordXYN f x y n).extractLsb' 8 4 = BitVec.ofFin (w := 4) x := by
    apply BitVec.eq_of_getLsbD_eq; intro i hi
    simp only [getLsbD_wordXYN, BitVec.getLsbD_extractLsb']
    interval_cases i <;> simp
  simp only [fieldX, h]

@[simp] theorem fieldY_wordXYN (f : BitVec 4) (x y : RegIx) (n : BitVec 4) : fieldY (wordXYN f x y n) = y := by
  have h : (wordXYN f x y n).extractLsb' 4 4 = BitVec.ofFin (w := 4) y := by
    apply BitVec.eq_of_getLsbD_eq; intro i hi
    simp only [getLsbD_wordXYN, BitVec.getLsbD_extractLsb']
    interval_cases i <;> simp
  simp only [fieldY, h]

@[simp] theorem fieldN_wordXYN (f : BitVec 4) (x y : RegIx) (n : BitVec 4) : fieldN (wordXYN f x y n) = n := by
  apply BitVec.eq_of_getLsbD_eq; intro i hi
  simp only [fieldN, getLsbD_wordXYN, BitVec.getLsbD_extractLsb']
  interval_cases i <;> simp

/-! ### A word is the join of its fields -/

theorem word_eq_wordXYN (w : Word) : w = wordXYN (family w) (fieldX w) (fieldY w) (fieldN w) := by
  apply BitVec.eq_of_getLsbD_eq; intro i hi
  simp only [getLsbD_wordXYN, family, fieldX, fieldY, fieldN, BitVec.ofFin_toFin, BitVec.getLsbD_extractLsb']
  interval_cases i <;> simp

theorem word_eq_wordXNN (w : Word) : w = wordXNN (family w) (fieldX w) (fieldNN w) := by
  apply BitVec.eq_of_getLsbD_eq; intro i hi
  simp only [getLsbD_wordXNN, family, fieldX, fieldNN, BitVec.ofFin_toFin, BitVec.getLsbD_extractLsb']
  interval_cases i <;> simp

theorem word_eq_wordA12 (w : Word) : w = wordA12 (family w) (fieldNNN w) := by
  apply BitVec.eq_of_getLsbD_eq; intro i hi
  simp only [getLsbD_wordA12, family, fieldNNN, BitVec.getLsbD_extractLsb']
  interval_cases i <;> simp

/-! ### The masks of the opcode map, as the fields they test -/

theorem and_F000_eq (w : Word) : w &&& 0xF000 = wordXYN (family w) 0 0 0 := by
  apply BitVec.eq_of_getLsbD_eq; intro i hi
  simp only [getLsbD_wordXYN, family, BitVec.getLsbD_extractLsb', BitVec.getLsbD_and]
  interval_cases i <;> simp

theorem and_F00F_eq (w : Word) : w &&& 0xF00F = wordXYN (family w) 0 0 (fieldN w) := by
  apply BitVec.eq_of_getLsbD_eq; intro i hi
  simp only [getLsbD_wordXYN, family, fieldN, BitVec.getLsbD_extractLsb', BitVec.getLsbD_and]
  interval_cases i <;> simp

theorem and_F0FF_eq (w : Word) : w &&& 0xF0FF = wordXNN (family w) 0 (fieldNN w) := by
  apply BitVec.eq_of_getLsbD_eq; intro i hi
  simp only [getLsbD_wordXNN, family, fieldNN, BitVec.getLsbD_extractLsb', BitVec.getLsbD_and]
  interval_cases i <;> simp

theorem and_000F_eq (w : Word) : w &&& 0x000F = wordXYN 0 0 0 (fieldN w) := by
  apply BitVec.eq_of_getLsbD_eq; intro i hi
  simp only [getLsbD_wordXYN, fieldN, BitVec.getLsbD_extractLsb', BitVec.getLsbD_and]
  interval_cases i <;> simp

theorem and_00FF_eq (w : Word) : w &&& 0x00FF = wordXNN 0 0 (fieldNN w) := by
  apply BitVec.eq_of_getLsbD_eq; intro i hi
  simp only [getLsbD_wordXNN, fieldNN, BitVec.getLsbD_extractLsb', BitVec.getLsbD_and]
  interval_cases i <;> simp

/-- A word that matches under the mask F000 has that family. -/
theorem family_of_match {w : Word} {f : BitVec 4} (h : w &&& 0xF000 = wordXYN f 0 0 0) : family w = f := by
  rw [and_F000_eq] at h; simpa using congrArg family h

/-- A word that matches under the mask F00F has that family and low nibble. -/
theorem fields_of_match_nibble {w : Word} {f n : BitVec 4} (h : w &&& 0xF00F = wordXYN f 0 0 n) :
    family w = f ∧ fieldN w = n := by
  rw [and_F00F_eq] at h; exact ⟨by simpa using congrArg family h, by simpa using congrArg fieldN h⟩

/-- A word that matches under the mask F0FF has that family and low byte. -/
theorem fields_of_match_byte {w : Word} {f : BitVec 4} {nn : Byte} (h : w &&& 0xF0FF = wordXNN f 0 nn) :
    family w = f ∧ fieldNN w = nn := by
  rw [and_F0FF_eq] at h; exact ⟨by simpa using congrArg family h, by simpa using congrArg fieldNN h⟩

/-! ### The list of unknown opcodes, as the fields it tests -/

theorem contains_low_zero (n : BitVec 4) :
    ([0x0, 0xE] : List Word).contains (wordXYN 0 0 0 n) = [0x0#4, 0xE#4].contains n := by
  revert n; decide

theorem contains_low_eight (n : BitVec 4) :
    ([0x8, 0x9, 0xA, 0xB, 0xC, 0xD, 0xF] : List Word).contains (wordXYN 0 0 0 n) =
      [0x8#4, 0x9#4, 0xA#4, 0xB#4, 0xC#4, 0xD#4, 0xF#4].contains n := by
  revert n; decide

theorem contains_low_key (n : BitVec 4) :
    ([0xE, 0x1] : List Word).contains (wordXYN 0 0 0 n) = [0xE#4, 0x1#4].contains n := by
  revert n; decide

theorem contains_low_byte (nn : Byte) :
    ([0x07, 0x0A, 0x15, 0x18, 0x1E, 0x29, 0x33, 0x55, 0x65] : List Word).contains (wordXNN 0 0 nn) =
      [0x07#8, 0x0A#8, 0x15#8, 0x18#8, 0x1E#8, 0x29#8, 0x33#8, 0x55#8, 0x65#8].contains nn := by
  revert nn; decide +kernel

theorem unknown_arms : ∀ (f : BitVec 4) (a b c d e : Bool),
    (match wordXYN f 0 0 0 with
     | 0x0000 => !a | 0x8000 => b | 0xC000 => c | 0xE000 => !d | 0xF000 => !e | _ => false) =
    match f with
     | 0x0#4 => !a | 0x8#4 => b | 0xC#4 => c | 0xE#4 => !d | 0xF#4 => !e | _ => false := by
  decide +kernel

/-- R79's list of unknown opcodes, on the fields the decoder dispatches on. -/
theorem isUnknownWord_eq (cfg : Config) (w : Word) : isUnknownWord cfg w =
    match family w with
    | 0x0#4 => !([0x0#4, 0xE#4].contains (fieldN w))
    | 0x8#4 => [0x8#4, 0x9#4, 0xA#4, 0xB#4, 0xC#4, 0xD#4, 0xF#4].contains (fieldN w)
    | 0xC#4 => cfg.cxnnMode == .noop
    | 0xE#4 => !([0xE#4, 0x1#4].contains (fieldN w))
    | 0xF#4 => !([0x07#8, 0x0A#8, 0x15#8, 0x18#8, 0x1E#8, 0x29#8, 0x33#8, 0x55#8, 0x65#8].contains (fieldNN w))
    | _ => false := by
  have h1 : w &&& 0xF000 = wordXYN (family w) 0 0 0 := and_F000_eq w
  have h2 : w &&& 0x000F = wordXYN 0 0 0 (fieldN w) := and_000F_eq w
  have h3 : w &&& 0x00FF = wordXNN 0 0 (fieldNN w) := and_00FF_eq w
  unfold isUnknownWord
  rw [← contains_low_zero, ← contains_low_eight, ← contains_low_key, ← contains_low_byte]
  simp only [h1, h2, h3]
  exact unknown_arms _ _ _ _ _ _

/-! ### The decoder's fields and the fields by division -/

open Machine in
theorem fieldX_eq_opX (w : Word) : fieldX w = opX w := by
  apply Fin.ext; simp [fieldX, opX, Nat.shiftRight_eq_div_pow]

open Machine in
theorem fieldY_eq_opY (w : Word) : fieldY w = opY w := by
  apply Fin.ext; simp [fieldY, opY, Nat.shiftRight_eq_div_pow]

open Machine in
theorem fieldN_eq_opN (w : Word) : fieldN w = opN w := by
  apply BitVec.eq_of_toNat_eq; simp [fieldN, opN]

open Machine in
theorem fieldNN_eq_opNN (w : Word) : fieldNN w = opNN w := by
  apply BitVec.eq_of_toNat_eq; simp [fieldNN, opNN]

open Machine in
theorem fieldNNN_eq_opNNN (w : Word) : fieldNNN w = opNNN w := by
  apply BitVec.eq_of_toNat_eq; simp [fieldNNN, opNNN]

/-! ### Bytes of a word -/

@[simp] theorem wordOfBytes_high_low (w : Word) : wordOfBytes (highByte w) (lowByte w) = w := by
  apply BitVec.eq_of_getLsbD_eq; intro i hi
  simp only [getLsbD_wordOfBytes, highByte, lowByte, BitVec.getLsbD_extractLsb']
  interval_cases i <;> simp

/-- A two-byte opcode read from memory is 256 times its first byte plus its second: big-endian (R52). -/
theorem wordOfBytes_toNat (hi lo : Byte) : (wordOfBytes hi lo).toNat = 256 * hi.toNat + lo.toNat := by
  have := lo.isLt
  rw [wordOfBytes, BitVec.toNat_append, Nat.shiftLeft_eq, Nat.mul_comm, ← Nat.two_pow_add_eq_or_of_lt this]

/-- Decoding the bytes an encoder lays out is decoding the word. -/
theorem decodeBytes_encodeBytes (cfg : Config) (i : Instr) :
    decodeBytes cfg (encodeBytes i) = .ok (decode cfg (encode i), []) := by
  simp [decodeBytes, encodeBytes]

/-- A word of R79's list decodes to the unknown opcode that keeps it. -/
theorem decode_of_isUnknownWord {cfg : Config} {w : Word} (h : isUnknownWord cfg w = true) :
    decode cfg w = .unknown w := by
  rw [isUnknownWord_eq] at h
  unfold decode
  split at h
  all_goals simp_all [decodeFamily0, decodeFamily8, decodeFamilyC, decodeFamilyE, decodeFamilyF]
  all_goals split <;> simp_all

end Sys2Proof
end

