-- ==== Sys2Proof/Laws/State.lean ====
section
/-! SUPPORT. One lemma per field of State per named update of it, so that no proof unfolds a record update. -/

namespace Sys2Proof.Machine

/-! ### `V[r] <- b` -/

@[simp] theorem State.setV_v (s : State) (r : RegIx) (b : Byte) : (s.setV r b).v = s.v.set r b := rfl
@[simp] theorem State.setV_i (s : State) (r : RegIx) (b : Byte) : (s.setV r b).i = s.i := rfl
@[simp] theorem State.setV_pc (s : State) (r : RegIx) (b : Byte) : (s.setV r b).pc = s.pc := rfl
@[simp] theorem State.setV_stack (s : State) (r : RegIx) (b : Byte) : (s.setV r b).stack = s.stack := rfl
@[simp] theorem State.setV_sp (s : State) (r : RegIx) (b : Byte) : (s.setV r b).sp = s.sp := rfl
@[simp] theorem State.setV_dt (s : State) (r : RegIx) (b : Byte) : (s.setV r b).dt = s.dt := rfl
@[simp] theorem State.setV_st (s : State) (r : RegIx) (b : Byte) : (s.setV r b).st = s.st := rfl
@[simp] theorem State.setV_mem (s : State) (r : RegIx) (b : Byte) : (s.setV r b).mem = s.mem := rfl
@[simp] theorem State.setV_fb (s : State) (r : RegIx) (b : Byte) : (s.setV r b).fb = s.fb := rfl
@[simp] theorem State.setV_fault (s : State) (r : RegIx) (b : Byte) : (s.setV r b).fault = s.fault := rfl
@[simp] theorem State.setV_keys (s : State) (r : RegIx) (b : Byte) : (s.setV r b).keys = s.keys := rfl
@[simp] theorem State.setV_rndIn (s : State) (r : RegIx) (b : Byte) : (s.setV r b).rndIn = s.rndIn := rfl
@[simp] theorem State.setV_draws (s : State) (r : RegIx) (b : Byte) : (s.setV r b).draws = s.draws := rfl
@[simp] theorem State.setV_loaded (s : State) (r : RegIx) (b : Byte) : (s.setV r b).loaded = s.loaded := rfl
@[simp] theorem State.setV_ticked (s : State) (r : RegIx) (b : Byte) : (s.setV r b).ticked = s.ticked := rfl
@[simp] theorem State.setV_cfg (s : State) (r : RegIx) (b : Byte) : (s.setV r b).cfg = s.cfg := rfl

/-! ### The pc advance -/

@[simp] theorem State.advance_v (s : State) : s.advance.v = s.v := rfl
@[simp] theorem State.advance_i (s : State) : s.advance.i = s.i := rfl
@[simp] theorem State.advance_pc (s : State) : s.advance.pc = s.pc + 2 := rfl
@[simp] theorem State.advance_stack (s : State) : s.advance.stack = s.stack := rfl
@[simp] theorem State.advance_sp (s : State) : s.advance.sp = s.sp := rfl
@[simp] theorem State.advance_dt (s : State) : s.advance.dt = s.dt := rfl
@[simp] theorem State.advance_st (s : State) : s.advance.st = s.st := rfl
@[simp] theorem State.advance_mem (s : State) : s.advance.mem = s.mem := rfl
@[simp] theorem State.advance_fb (s : State) : s.advance.fb = s.fb := rfl
@[simp] theorem State.advance_fault (s : State) : s.advance.fault = s.fault := rfl
@[simp] theorem State.advance_keys (s : State) : s.advance.keys = s.keys := rfl
@[simp] theorem State.advance_rndIn (s : State) : s.advance.rndIn = s.rndIn := rfl
@[simp] theorem State.advance_draws (s : State) : s.advance.draws = s.draws := rfl
@[simp] theorem State.advance_loaded (s : State) : s.advance.loaded = s.loaded := rfl
@[simp] theorem State.advance_ticked (s : State) : s.advance.ticked = s.ticked := rfl
@[simp] theorem State.advance_cfg (s : State) : s.advance.cfg = s.cfg := rfl

/-! ### A memory write -/

@[simp] theorem State.setByte_v (s : State) (a : Nat) (b : Byte) : (s.setByte a b).v = s.v := rfl
@[simp] theorem State.setByte_i (s : State) (a : Nat) (b : Byte) : (s.setByte a b).i = s.i := rfl
@[simp] theorem State.setByte_pc (s : State) (a : Nat) (b : Byte) : (s.setByte a b).pc = s.pc := rfl
@[simp] theorem State.setByte_stack (s : State) (a : Nat) (b : Byte) : (s.setByte a b).stack = s.stack := rfl
@[simp] theorem State.setByte_sp (s : State) (a : Nat) (b : Byte) : (s.setByte a b).sp = s.sp := rfl
@[simp] theorem State.setByte_dt (s : State) (a : Nat) (b : Byte) : (s.setByte a b).dt = s.dt := rfl
@[simp] theorem State.setByte_st (s : State) (a : Nat) (b : Byte) : (s.setByte a b).st = s.st := rfl
@[simp] theorem State.setByte_mem (s : State) (a : Nat) (b : Byte) : (s.setByte a b).mem = Memory.write s.cfg a b s.mem := rfl
@[simp] theorem State.setByte_fb (s : State) (a : Nat) (b : Byte) : (s.setByte a b).fb = s.fb := rfl
@[simp] theorem State.setByte_fault (s : State) (a : Nat) (b : Byte) : (s.setByte a b).fault = s.fault := rfl
@[simp] theorem State.setByte_keys (s : State) (a : Nat) (b : Byte) : (s.setByte a b).keys = s.keys := rfl
@[simp] theorem State.setByte_rndIn (s : State) (a : Nat) (b : Byte) : (s.setByte a b).rndIn = s.rndIn := rfl
@[simp] theorem State.setByte_draws (s : State) (a : Nat) (b : Byte) : (s.setByte a b).draws = s.draws := rfl
@[simp] theorem State.setByte_loaded (s : State) (a : Nat) (b : Byte) : (s.setByte a b).loaded = s.loaded := rfl
@[simp] theorem State.setByte_ticked (s : State) (a : Nat) (b : Byte) : (s.setByte a b).ticked = s.ticked := rfl
@[simp] theorem State.setByte_cfg (s : State) (a : Nat) (b : Byte) : (s.setByte a b).cfg = s.cfg := rfl

/-! ### Taking a fault -/

@[simp] theorem raiseFault_v (s : State) (r : Raise) : (raiseFault s r).v = s.v := rfl
@[simp] theorem raiseFault_i (s : State) (r : Raise) : (raiseFault s r).i = s.i := rfl
@[simp] theorem raiseFault_pc (s : State) (r : Raise) : (raiseFault s r).pc = s.pc := rfl
@[simp] theorem raiseFault_stack (s : State) (r : Raise) : (raiseFault s r).stack = s.stack := rfl
@[simp] theorem raiseFault_sp (s : State) (r : Raise) : (raiseFault s r).sp = s.sp := rfl
@[simp] theorem raiseFault_dt (s : State) (r : Raise) : (raiseFault s r).dt = s.dt := rfl
@[simp] theorem raiseFault_st (s : State) (r : Raise) : (raiseFault s r).st = s.st := rfl
@[simp] theorem raiseFault_mem (s : State) (r : Raise) : (raiseFault s r).mem = s.mem := rfl
@[simp] theorem raiseFault_fb (s : State) (r : Raise) : (raiseFault s r).fb = s.fb := rfl
@[simp] theorem raiseFault_fault (s : State) (r : Raise) : (raiseFault s r).fault = ⟨r.code, s.pc, r.info⟩ := rfl
@[simp] theorem raiseFault_keys (s : State) (r : Raise) : (raiseFault s r).keys = s.keys := rfl
@[simp] theorem raiseFault_rndIn (s : State) (r : Raise) : (raiseFault s r).rndIn = s.rndIn := rfl
@[simp] theorem raiseFault_draws (s : State) (r : Raise) : (raiseFault s r).draws = s.draws := rfl
@[simp] theorem raiseFault_loaded (s : State) (r : Raise) : (raiseFault s r).loaded = s.loaded := rfl
@[simp] theorem raiseFault_ticked (s : State) (r : Raise) : (raiseFault s r).ticked = s.ticked := rfl
@[simp] theorem raiseFault_cfg (s : State) (r : Raise) : (raiseFault s r).cfg = s.cfg := rfl

/-! ### The countdown -/

@[simp] theorem timerCountdown_v (s : State) : (timerCountdown s).v = s.v := rfl
@[simp] theorem timerCountdown_i (s : State) : (timerCountdown s).i = s.i := rfl
@[simp] theorem timerCountdown_pc (s : State) : (timerCountdown s).pc = s.pc := rfl
@[simp] theorem timerCountdown_stack (s : State) : (timerCountdown s).stack = s.stack := rfl
@[simp] theorem timerCountdown_sp (s : State) : (timerCountdown s).sp = s.sp := rfl
@[simp] theorem timerCountdown_dt (s : State) : (timerCountdown s).dt = countdown s.dt := rfl
@[simp] theorem timerCountdown_st (s : State) : (timerCountdown s).st = countdown s.st := rfl
@[simp] theorem timerCountdown_mem (s : State) : (timerCountdown s).mem = s.mem := rfl
@[simp] theorem timerCountdown_fb (s : State) : (timerCountdown s).fb = s.fb := rfl
@[simp] theorem timerCountdown_fault (s : State) : (timerCountdown s).fault = s.fault := rfl
@[simp] theorem timerCountdown_keys (s : State) : (timerCountdown s).keys = s.keys := rfl
@[simp] theorem timerCountdown_rndIn (s : State) : (timerCountdown s).rndIn = s.rndIn := rfl
@[simp] theorem timerCountdown_draws (s : State) : (timerCountdown s).draws = s.draws := rfl
@[simp] theorem timerCountdown_loaded (s : State) : (timerCountdown s).loaded = s.loaded := rfl
@[simp] theorem timerCountdown_ticked (s : State) : (timerCountdown s).ticked = s.ticked := rfl
@[simp] theorem timerCountdown_cfg (s : State) : (timerCountdown s).cfg = s.cfg := rfl

/-! ### Using the inputs -/

@[simp] theorem useInputs_v (s : State) : (useInputs s).v = s.v := rfl
@[simp] theorem useInputs_i (s : State) : (useInputs s).i = s.i := rfl
@[simp] theorem useInputs_pc (s : State) : (useInputs s).pc = s.pc := rfl
@[simp] theorem useInputs_stack (s : State) : (useInputs s).stack = s.stack := rfl
@[simp] theorem useInputs_sp (s : State) : (useInputs s).sp = s.sp := rfl
@[simp] theorem useInputs_dt (s : State) : (useInputs s).dt = s.dt := rfl
@[simp] theorem useInputs_st (s : State) : (useInputs s).st = s.st := rfl
@[simp] theorem useInputs_mem (s : State) : (useInputs s).mem = s.mem := rfl
@[simp] theorem useInputs_fb (s : State) : (useInputs s).fb = s.fb := rfl
@[simp] theorem useInputs_fault (s : State) : (useInputs s).fault = s.fault := rfl
@[simp] theorem useInputs_keys (s : State) : (useInputs s).keys = s.keys := rfl
@[simp] theorem useInputs_rndIn (s : State) : (useInputs s).rndIn = none := rfl
@[simp] theorem useInputs_draws (s : State) : (useInputs s).draws = s.draws + 1 := rfl
@[simp] theorem useInputs_loaded (s : State) : (useInputs s).loaded = s.loaded := rfl
@[simp] theorem useInputs_ticked (s : State) : (useInputs s).ticked = true := rfl
@[simp] theorem useInputs_cfg (s : State) : (useInputs s).cfg = s.cfg := rfl

/-! ### A skip changes the pc alone -/

@[simp] theorem State.skipIf_pc (c : Bool) (s : State) : (s.skipIf c).pc = if c then s.pc + 2 else s.pc := by
  cases c <;> rfl
@[simp] theorem State.skipIf_v (c : Bool) (s : State) : (s.skipIf c).v = s.v := by cases c <;> rfl
@[simp] theorem State.skipIf_i (c : Bool) (s : State) : (s.skipIf c).i = s.i := by cases c <;> rfl
@[simp] theorem State.skipIf_stack (c : Bool) (s : State) : (s.skipIf c).stack = s.stack := by cases c <;> rfl
@[simp] theorem State.skipIf_sp (c : Bool) (s : State) : (s.skipIf c).sp = s.sp := by cases c <;> rfl
@[simp] theorem State.skipIf_dt (c : Bool) (s : State) : (s.skipIf c).dt = s.dt := by cases c <;> rfl
@[simp] theorem State.skipIf_st (c : Bool) (s : State) : (s.skipIf c).st = s.st := by cases c <;> rfl
@[simp] theorem State.skipIf_mem (c : Bool) (s : State) : (s.skipIf c).mem = s.mem := by cases c <;> rfl
@[simp] theorem State.skipIf_fb (c : Bool) (s : State) : (s.skipIf c).fb = s.fb := by cases c <;> rfl
@[simp] theorem State.skipIf_fault (c : Bool) (s : State) : (s.skipIf c).fault = s.fault := by cases c <;> rfl
@[simp] theorem State.skipIf_keys (c : Bool) (s : State) : (s.skipIf c).keys = s.keys := by cases c <;> rfl
@[simp] theorem State.skipIf_rndIn (c : Bool) (s : State) : (s.skipIf c).rndIn = s.rndIn := by cases c <;> rfl
@[simp] theorem State.skipIf_draws (c : Bool) (s : State) : (s.skipIf c).draws = s.draws := by cases c <;> rfl
@[simp] theorem State.skipIf_loaded (c : Bool) (s : State) : (s.skipIf c).loaded = s.loaded := by cases c <;> rfl
@[simp] theorem State.skipIf_ticked (c : Bool) (s : State) : (s.skipIf c).ticked = s.ticked := by cases c <;> rfl
@[simp] theorem State.skipIf_cfg (c : Bool) (s : State) : (s.skipIf c).cfg = s.cfg := by cases c <;> rfl

/-! ### Reset -/

@[simp] theorem State.resetWith_v (cfg : Config) : (State.resetWith cfg).v = Vector.replicate 16 0x00 := rfl
@[simp] theorem State.resetWith_i (cfg : Config) : (State.resetWith cfg).i = 0 := rfl
@[simp] theorem State.resetWith_pc (cfg : Config) : (State.resetWith cfg).pc = 0x200 := rfl
@[simp] theorem State.resetWith_stack (cfg : Config) : (State.resetWith cfg).stack = Vector.replicate 16 0x0000 := rfl
@[simp] theorem State.resetWith_sp (cfg : Config) : (State.resetWith cfg).sp = 0 := rfl
@[simp] theorem State.resetWith_dt (cfg : Config) : (State.resetWith cfg).dt = 0 := rfl
@[simp] theorem State.resetWith_st (cfg : Config) : (State.resetWith cfg).st = 0 := rfl
@[simp] theorem State.resetWith_mem (cfg : Config) : (State.resetWith cfg).mem = [] := rfl
@[simp] theorem State.resetWith_fb (cfg : Config) : (State.resetWith cfg).fb = Vector.replicate 64 (Vector.replicate 32 false) := rfl
@[simp] theorem State.resetWith_fault (cfg : Config) : (State.resetWith cfg).fault = ⟨.none, 0, 0⟩ := rfl
@[simp] theorem State.resetWith_keys (cfg : Config) : (State.resetWith cfg).keys = 0 := rfl
@[simp] theorem State.resetWith_rndIn (cfg : Config) : (State.resetWith cfg).rndIn = none := rfl
@[simp] theorem State.resetWith_draws (cfg : Config) : (State.resetWith cfg).draws = 0 := rfl
@[simp] theorem State.resetWith_loaded (cfg : Config) : (State.resetWith cfg).loaded = false := rfl
@[simp] theorem State.resetWith_ticked (cfg : Config) : (State.resetWith cfg).ticked = false := rfl
@[simp] theorem State.resetWith_cfg (cfg : Config) : (State.resetWith cfg).cfg = cfg := rfl

/-! ### The read views -/

@[simp] theorem State.getV_setV_same (s : State) (r : RegIx) (b : Byte) : (s.setV r b).getV r = b := by
  simp [State.getV, State.setV]

theorem State.getV_setV_other (s : State) {r q : RegIx} (b : Byte) (h : q ≠ r) : (s.setV r b).getV q = s.getV q := by
  have h' : r.val ≠ q.val := fun e => h (Fin.ext e.symm)
  simp [State.getV, State.setV, h']

/-- A register after a write: the value written, or what it held. -/
theorem State.getV_setV (s : State) (r q : RegIx) (b : Byte) :
    (s.setV r b).getV q = if q = r then b else s.getV q := by
  split
  · subst q; exact s.getV_setV_same r b
  · exact s.getV_setV_other b ‹_›

@[simp] theorem State.advance_getV (s : State) (r : RegIx) : s.advance.getV r = s.getV r := rfl
@[simp] theorem State.advance_rnd (s : State) : s.advance.rnd = s.rnd := rfl
@[simp] theorem State.advance_byteAt (s : State) (a : Nat) : s.advance.byteAt a = s.byteAt a := rfl
@[simp] theorem State.setV_byteAt (s : State) (r : RegIx) (b : Byte) (a : Nat) : (s.setV r b).byteAt a = s.byteAt a := rfl
@[simp] theorem State.skipIf_getV (c : Bool) (s : State) (r : RegIx) : (s.skipIf c).getV r = s.getV r := by
  cases c <;> rfl
@[simp] theorem raiseFault_getV (s : State) (x : Raise) (r : RegIx) : (raiseFault s x).getV r = s.getV r := rfl
@[simp] theorem raiseFault_byteAt (s : State) (x : Raise) (a : Nat) : (raiseFault s x).byteAt a = s.byteAt a := rfl

/-- The core is halted exactly when FAULT.code is not 0. -/
@[simp] theorem State.halted_iff (s : State) : s.halted = true ↔ s.fault.code ≠ .none := by
  simp [State.halted]

/-- The core is not halted exactly when FAULT.code is 0. -/
@[simp] theorem State.not_halted_iff (s : State) : s.halted = false ↔ s.fault.code = .none := by
  simp [State.halted]

end Sys2Proof.Machine
end

