-- ==== Sys2Proof/Laws/Memory.lean ====
section
/-! SUPPORT. Memory: what a read gives after a write, that every operation keeps the canonical form, and what the
checked single and block accesses do. -/

namespace Sys2Proof.Machine

/-! ### The list of written bytes -/

@[simp] theorem Memory.find_nil (a : Nat) : Memory.find [] a = none := rfl
@[simp] theorem Memory.read_nil (cfg : Config) (a : Nat) : Memory.read cfg [] a = resetByte cfg a := rfl
@[simp] theorem Memory.wf_nil (cfg : Config) : Memory.wf cfg [] = true := rfl

/-- The canonical form of a nonempty list, spelled out. -/
theorem Memory.wfFrom_cons {cfg : Config} {lo a : Nat} {v : Byte} {m : Memory} :
    Memory.wfFrom cfg lo ((a, v) :: m) = true ↔
      lo ≤ a ∧ a < memSize ∧ v ≠ resetByte cfg a ∧ Memory.wfFrom cfg (a + 1) m = true := by
  simp [Memory.wfFrom, and_assoc]

/-- A canonical list from `lo` on is canonical from any lower bound. -/
theorem Memory.wfFrom_mono {cfg : Config} {lo lo' : Nat} {m : Memory} (h : lo' ≤ lo)
    (hm : Memory.wfFrom cfg lo m = true) : Memory.wfFrom cfg lo' m = true := by
  cases m with
  | nil => rfl
  | cons p m =>
    rw [Memory.wfFrom_cons] at hm ⊢
    exact ⟨h.trans hm.1, hm.2⟩

/-- A list that is canonical from `lo` on lists nothing below `lo`. -/
theorem Memory.find_below {cfg : Config} {a : Nat} : ∀ {m : Memory} {lo : Nat},
    Memory.wfFrom cfg lo m = true → a < lo → Memory.find m a = none
  | [], _, _, _ => rfl
  | (b, w) :: m, lo, hm, h => by
    rw [Memory.wfFrom_cons] at hm
    have hne : a ≠ b := by omega
    simp only [Memory.find, hne, if_false]
    exact Memory.find_below hm.2.2.2 (by omega)

/-- A read after a write: the byte written at the address written, and what was there elsewhere. -/
theorem Memory.read_write {cfg : Config} {a c : Nat} {v : Byte} : ∀ {m : Memory} {lo : Nat},
    Memory.wfFrom cfg lo m = true →
      Memory.read cfg (Memory.write cfg a v m) c = if c = a then v else Memory.read cfg m c
  | [], lo, _ => by
    unfold Memory.write
    by_cases hv : v = resetByte cfg a <;> by_cases hc : c = a <;>
      simp [hv, hc, Memory.read, Memory.find]
  | (b, w) :: m, lo, hm => by
    rw [Memory.wfFrom_cons] at hm
    obtain ⟨_, _, _, hm⟩ := hm
    unfold Memory.write
    split
    · have hb : a ≠ b := by omega
      have hnone : Memory.find m a = none := Memory.find_below hm (by omega)
      by_cases hv : v = resetByte cfg a <;> by_cases hc : c = a <;>
        simp [hv, hc, Memory.read, Memory.find, hb, hnone]
    · split
      · subst b
        have hnone : Memory.find m a = none := Memory.find_below hm (by omega)
        by_cases hv : v = resetByte cfg a <;> by_cases hc : c = a <;>
          simp [hv, hc, Memory.read, Memory.find, hnone]
      · have ih := Memory.read_write (c := c) (a := a) (v := v) hm
        by_cases hc : c = b
        · have hca : c ≠ a := by omega
          have hba : b ≠ a := by omega
          simp [Memory.read, Memory.find, hc, hba]
        · simpa [Memory.read, Memory.find, hc] using ih

/-- A write inside memory keeps the canonical form. -/
theorem Memory.write_wfFrom {cfg : Config} {a : Nat} {v : Byte} (ha : a < memSize) : ∀ {m : Memory} {lo : Nat},
    lo ≤ a → Memory.wfFrom cfg lo m = true → Memory.wfFrom cfg lo (Memory.write cfg a v m) = true
  | [], lo, hlo, _ => by
    unfold Memory.write
    split
    · rfl
    · rw [Memory.wfFrom_cons]; exact ⟨hlo, ha, ‹_›, rfl⟩
  | (b, w) :: m, lo, hlo, hm => by
    have hm' := hm
    rw [Memory.wfFrom_cons] at hm'
    unfold Memory.write
    split
    · split
      · exact hm
      · rw [Memory.wfFrom_cons, Memory.wfFrom_cons]
        exact ⟨hlo, ha, ‹_›, by omega, hm'.2⟩
    · split
      · subst b
        split
        · exact Memory.wfFrom_mono (by omega) hm'.2.2.2
        · rw [Memory.wfFrom_cons]; exact ⟨hlo, ha, ‹_›, hm'.2.2.2⟩
      · rw [Memory.wfFrom_cons]
        exact ⟨hm'.1, hm'.2.1, hm'.2.2.1, Memory.write_wfFrom ha (by omega) hm'.2.2.2⟩

/-- Every memory operation keeps the canonical form: `Memory.write` is the only one that changes memory. -/
theorem Memory.write_wf {cfg : Config} {a : Nat} {v : Byte} {m : Memory} (ha : a < memSize)
    (hm : Memory.wf cfg m = true) : Memory.wf cfg (Memory.write cfg a v m) = true :=
  Memory.write_wfFrom ha (Nat.zero_le a) hm

/-! ### One byte of the state -/

theorem State.byteAt_setByte {s : State} (hs : s.memWf) (a c : Nat) (b : Byte) :
    (s.setByte a b).byteAt c = if c = a then b else s.byteAt c :=
  Memory.read_write hs

theorem State.setByte_memWf {s : State} (hs : s.memWf) {a : Nat} (ha : a < memSize) (b : Byte) :
    (s.setByte a b).memWf :=
  Memory.write_wf ha hs

/-! ### Checked accesses -/

theorem memRead_inRange {s : State} {a : Nat} (h : a ≤ 0xFFF) : memRead s a = .ok (s.byteAt a) := by
  simp [memRead, Nat.not_lt.mpr h]

theorem memRead_outOfRange {s : State} {a : Nat} (h : 0xFFF < a) :
    memRead s a = .error ⟨.memOutOfRange, BitVec.ofNat 16 a⟩ := by
  simp [memRead, h]

theorem memWrite_inRange {s : State} {a : Nat} (b : Byte) (h : a ≤ 0xFFF) :
    memWrite s a b = .ok (s.setByte a b) := by
  simp [memWrite, Nat.not_lt.mpr h]

theorem memWrite_outOfRange {s : State} {a : Nat} (b : Byte) (h : 0xFFF < a) :
    memWrite s a b = .error ⟨.memOutOfRange, BitVec.ofNat 16 a⟩ := by
  simp [memWrite, h]

/-! ### Block reads -/

/-- The bytes a block read gives when it stays in range. -/
def State.bytesAt (s : State) (a : Nat) : Nat → List Byte
  | 0 => []
  | n + 1 => s.byteAt a :: State.bytesAt s (a + 1) n

@[simp] theorem State.bytesAt_length (s : State) (n : Nat) : ∀ a, (s.bytesAt a n).length = n := by
  induction n with
  | zero => intro a; rfl
  | succ n ih => intro a; simp [State.bytesAt, ih]

theorem State.bytesAt_getElem (s : State) {n : Nat} : ∀ {a k : Nat} (h : k < (s.bytesAt a n).length),
    (s.bytesAt a n)[k] = s.byteAt (a + k) := by
  induction n with
  | zero => intro a k h; simp [State.bytesAt] at h
  | succ n ih =>
    intro a k h
    cases k with
    | zero => simp [State.bytesAt]
    | succ k =>
      simp only [State.bytesAt, List.getElem_cons_succ]
      rw [ih]; congr 1; omega

/-- All a block read can do: read every byte in range, or raise at the first address above 0xFFF (R50, R245). -/
theorem readBlock_spec (s : State) (n : Nat) : ∀ a : Nat,
    readBlock s a n =
      if n = 0 ∨ a + n ≤ memSize then .ok (s.bytesAt a n)
      else .error ⟨.memOutOfRange, BitVec.ofNat 16 (max a memSize)⟩ := by
  induction n with
  | zero => intro a; simp [readBlock, State.bytesAt]
  | succ n ih =>
    intro a
    unfold readBlock
    by_cases ha : a ≤ 0xFFF
    · rw [memRead_inRange ha]
      simp only [ih (a + 1)]
      by_cases hn : n = 0 ∨ a + 1 + n ≤ memSize
      · have : a + (n + 1) ≤ memSize := by
          rcases hn with rfl | hn
          · simp only [memSize]; omega
          · omega
        simp [hn, this, State.bytesAt]
      · have h1 : ¬ (n + 1 = 0 ∨ a + (n + 1) ≤ memSize) := by omega
        have h2 : max (a + 1) memSize = max a memSize := by simp only [memSize] at *; omega
        simp only [hn, h1, if_false, h2]
    · rw [memRead_outOfRange (by omega)]
      have h1 : ¬ (n + 1 = 0 ∨ a + (n + 1) ≤ memSize) := by simp only [memSize]; omega
      have h2 : max a memSize = a := by simp only [memSize]; omega
      simp only [h1, if_false, h2]

/-! ### Block writes -/

/-- The state after writing bytes from address `a` on, with no range check. -/
def State.setBytes (s : State) (a : Nat) : List Byte → State
  | [] => s
  | b :: bs => State.setBytes (s.setByte a b) (a + 1) bs

/-- A block write changes memory alone. -/
theorem State.setBytes_eq (bs : List Byte) : ∀ (s : State) (a : Nat),
    s.setBytes a bs = { s with mem := (s.setBytes a bs).mem } := by
  induction bs with
  | nil => intro s a; rfl
  | cons b bs ih => intro s a; exact ih (s.setByte a b) (a + 1)

theorem State.setBytes_memWf (bs : List Byte) : ∀ {s : State} {a : Nat}, s.memWf → a + bs.length ≤ memSize →
    (s.setBytes a bs).memWf := by
  induction bs with
  | nil => intro s a hs _; exact hs
  | cons b bs ih =>
    intro s a hs h
    simp only [List.length_cons] at h
    exact ih (s.setByte_memWf hs (by omega) b) (by omega)

/-- What each address reads as after a block write: the byte stored there, or what was there. -/
theorem State.byteAt_setBytes (bs : List Byte) : ∀ {s : State} {a : Nat} (c : Nat), s.memWf →
    a + bs.length ≤ memSize →
    (s.setBytes a bs).byteAt c =
      if a ≤ c ∧ c < a + bs.length then bs.getD (c - a) 0 else s.byteAt c := by
  induction bs with
  | nil => intro s a c _ _; simp [State.setBytes]
  | cons b bs ih =>
    intro s a c hs h
    simp only [List.length_cons] at h
    have hw := s.setByte_memWf hs (a := a) (by omega) b
    simp only [State.setBytes]
    rw [ih c hw (by omega), State.byteAt_setByte hs]
    by_cases hc : c = a
    · subst c; simp
    · by_cases hin : a + 1 ≤ c ∧ c < a + 1 + bs.length
      · have h1 : a ≤ c ∧ c < a + (bs.length + 1) := by omega
        have h2 : c - a = (c - (a + 1)) + 1 := by omega
        simp only [hin, and_self, if_true, List.length_cons, h1, h2, List.getD_cons_succ]
      · have h1 : ¬ (a ≤ c ∧ c < a + (bs.length + 1)) := by omega
        simp only [hin, if_false, hc, List.length_cons, h1]

/-- All a block write can do: write every byte in range, or raise at the first address above 0xFFF (R50, R245). -/
theorem writeBlock_spec (bs : List Byte) : ∀ (s : State) (a : Nat),
    writeBlock s a bs =
      if bs = [] ∨ a + bs.length ≤ memSize then .ok (s.setBytes a bs)
      else .error ⟨.memOutOfRange, BitVec.ofNat 16 (max a memSize)⟩ := by
  induction bs with
  | nil => intro s a; simp [writeBlock, State.setBytes]
  | cons b bs ih =>
    intro s a
    unfold writeBlock
    by_cases ha : a ≤ 0xFFF
    · rw [memWrite_inRange b ha]
      simp only [ih]
      by_cases hn : bs = [] ∨ a + 1 + bs.length ≤ memSize
      · have : a + (bs.length + 1) ≤ memSize := by
          rcases hn with rfl | hn
          · simp only [memSize, List.length_nil]; omega
          · omega
        simp [hn, this, State.setBytes]
      · have h1 : ¬ (a + (bs.length + 1) ≤ memSize) := by omega
        have h2 : max (a + 1) memSize = max a memSize := by simp only [memSize] at *; omega
        simp only [hn, h1, if_false, h2, List.length_cons, reduceCtorEq, or_self]
    · rw [memWrite_outOfRange b (by omega)]
      have h1 : ¬ (a + (bs.length + 1) ≤ memSize) := by simp only [memSize]; omega
      have h2 : max a memSize = a := by simp only [memSize]; omega
      simp only [h1, if_false, h2, List.length_cons, reduceCtorEq, or_self]

end Sys2Proof.Machine
end

