-- ==== Sys2Proof/Laws/Ops.lean ====
section
/-! SUPPORT. One lemma per shared operation: what a handler's run, a push, a pop, a key index, a key scan, a flag commit,
a register block and the end of a tick can do. -/

namespace Sys2Proof.Machine

/-! ### Running a handler -/

theorem runHandler_ok {h : Handler} {s0 s : State} (e : h s0.advance = .ok s) : runHandler h s0 = .next s := by
  simp [runHandler, e]

theorem runHandler_error {h : Handler} {s0 : State} {r : Raise} (e : h s0.advance = .error r) :
    runHandler h s0 = .next (raiseFault s0 r) := by
  simp [runHandler, e]

/-- All a run of a handler can do: it completes with the handler's state, or takes the fault it raises. -/
theorem runHandler_cases {h : Handler} {s0 t : State} (e : runHandler h s0 = .next t) :
    h s0.advance = .ok t ∨ ∃ r, h s0.advance = .error r ∧ t = raiseFault s0 r := by
  unfold runHandler at e
  split at e
  · exact .inl (by simp_all)
  · exact .inr ⟨_, ‹_›, by simpa using e.symm⟩

/-- A handler's run always answers a next state. -/
theorem runHandler_next (h : Handler) (s0 : State) : ∃ t, runHandler h s0 = .next t := by
  unfold runHandler; split <;> exact ⟨_, rfl⟩

@[simp] theorem complete_eq (f : State → State) (s0 : State) : complete f s0 = .next (f s0.advance) := rfl

/-! ### The return-address stack -/

theorem State.push_notFull {s : State} (h : s.sp.val < 16) :
    s.push = .ok { s with stack := s.stack.set s.sp.val s.pc, sp := ⟨s.sp.val + 1, by omega⟩ } := by
  simp [State.push, h]

theorem State.push_full {s : State} (h : s.sp = 16) : s.push = .error ⟨.stackOverflow, 0⟩ := by
  simp [State.push, h]

theorem State.pop_notEmpty {s : State} (h : s.sp.val ≠ 0) :
    s.pop = .ok { s with sp := ⟨s.sp.val - 1, by omega⟩, pc := s.stack[s.sp.val - 1]'(by omega) } := by
  simp [State.pop, h]

theorem State.pop_empty {s : State} (h : s.sp = 0) : s.pop = .error ⟨.stackUnderflow, 0⟩ := by
  simp [State.pop, h]

/-! ### The keypad -/

theorem keyIndex_inRange {v : Byte} (h : v.toNat < 16) : keyIndex v = .ok ⟨v.toNat, h⟩ := by
  simp [keyIndex, h]

theorem keyIndex_outOfRange {v : Byte} (h : 16 ≤ v.toNat) : keyIndex v = .error ⟨.keyOutOfRange, v.setWidth 16⟩ := by
  simp [keyIndex, Nat.not_lt.mpr h]

/-- Some key is pressed exactly when the keypad input is not zero. -/
theorem State.keys_ne_zero_iff (s : State) : s.keys ≠ 0 ↔ ∃ k, s.pressed k = true := by
  constructor
  · intro h
    by_contra hn
    apply h
    apply BitVec.eq_of_getLsbD_eq; intro i hi
    have := fun hp => hn ⟨⟨i, hi⟩, hp⟩
    simpa [State.pressed] using this
  · rintro ⟨k, hk⟩ h0
    simp [State.pressed, h0] at hk

/-- The scan finds no key exactly when none is pressed (R202). -/
theorem State.scanKeys_none (s : State) : s.scanKeys = none ↔ s.keys = 0 := by
  have hz : s.keys = 0 ↔ ∀ k, ¬ s.pressed k = true := by
    rw [← not_iff_not, ← ne_eq, State.keys_ne_zero_iff]; simp
  rw [hz]
  unfold State.scanKeys
  split <;> simp

/-- The scan finds a pressed key. -/
theorem State.scanKeys_pressed {s : State} {k : RegIx} (h : s.scanKeys = some k) : s.pressed k = true := by
  unfold State.scanKeys at h
  split at h <;> exact List.find?_some h

/-- Under `lowest` no lower key is pressed. -/
theorem State.scanKeys_lowest {s : State} {k : RegIx} (hc : s.cfg.keyScanOrder = .lowest) (h : s.scanKeys = some k) :
    ∀ j, s.pressed j = true → k ≤ j := by
  unfold State.scanKeys at h
  rw [hc] at h
  intro j hj
  obtain ⟨-, as, bs, hl, hno⟩ := List.find?_eq_some_iff_append.mp h
  have hs : (as ++ k :: bs).Pairwise (· < ·) := hl ▸ List.pairwise_lt_finRange 16
  have hm : j ∈ as ++ k :: bs := hl ▸ List.mem_finRange j
  rcases List.mem_append.mp hm with hm | hm
  · have := hno j hm; simp [hj] at this
  · rcases List.mem_cons.mp hm with rfl | hm
    · exact le_refl _
    · exact le_of_lt ((List.pairwise_cons.mp (List.pairwise_append.mp hs).2.1).1 j hm)

/-- Under `highest` no higher key is pressed. -/
theorem State.scanKeys_highest {s : State} {k : RegIx} (hc : s.cfg.keyScanOrder = .highest) (h : s.scanKeys = some k) :
    ∀ j, s.pressed j = true → j ≤ k := by
  unfold State.scanKeys at h
  rw [hc] at h
  intro j hj
  obtain ⟨-, as, bs, hl, hno⟩ := List.find?_eq_some_iff_append.mp h
  have hs : (as ++ k :: bs).Pairwise (· > ·) :=
    hl ▸ List.pairwise_reverse.mpr (List.pairwise_lt_finRange 16)
  have hm : j ∈ as ++ k :: bs := hl ▸ List.mem_reverse.mpr (List.mem_finRange j)
  rcases List.mem_append.mp hm with hm | hm
  · have := hno j hm; simp [hj] at this
  · rcases List.mem_cons.mp hm with rfl | hm
    · exact le_refl _
    · exact le_of_lt ((List.pairwise_cons.mp (List.pairwise_append.mp hs).2.1).1 j hm)

/-! ### The flag commit -/

/-- A commit changes registers alone. -/
theorem commit_eq (f : Byte → Byte → Bool) (r : Byte → Byte → Byte) (x y : RegIx) (s : State) :
    commit f r x y s = { s with v := (commit f r x y s).v } := by
  unfold commit; split <;> rfl

/-- A commit changes VX and VF alone. -/
theorem commit_getV_other {f : Byte → Byte → Bool} {r : Byte → Byte → Byte} {x y q : RegIx} {s : State}
    (hx : q ≠ x) (hf : q ≠ vf) : (commit f r x y s).getV q = s.getV q := by
  unfold commit; split <;> simp [State.getV_setV, hx, hf]

/-- With X ≠ F, and Y ≠ F unless the operands are not read again, VF ends as the flag and VX as the result (R142). -/
theorem commit_getV {f : Byte → Byte → Bool} {r : Byte → Byte → Byte} {x y : RegIx} {s : State} (hx : x ≠ vf)
    (hy : s.cfg.vfDest = .reread → y ≠ vf) :
    (commit f r x y s).getV x = r (s.getV x) (s.getV y) ∧
      (commit f r x y s).getV vf = flagByte (f (s.getV x) (s.getV y)) := by
  have hx' : vf ≠ x := hx.symm
  unfold commit
  split
  · simp [State.getV_setV, hx']
  · simp [State.getV_setV, hx]
  · have := hy ‹_›
    simp [State.getV_setV, hx', hx, this]

/-! ### Register blocks -/

@[simp] theorem State.regsTo_length (s : State) (x : RegIx) : (s.regsTo x).length = x.val + 1 := by
  simp [State.regsTo]

theorem State.regsTo_getElem (s : State) (x : RegIx) {k : Nat} (hk : k < (s.regsTo x).length) :
    (s.regsTo x)[k] = s.v[k]'(by have := s.regsTo_length x; omega) := by
  simp [State.regsTo]

/-- Loading a register block changes registers alone. -/
theorem State.setRegsFrom_eq (bs : List Byte) : ∀ (s : State) (k : Nat),
    s.setRegsFrom k bs = { s with v := (s.setRegsFrom k bs).v } := by
  induction bs with
  | nil => intro s k; rfl
  | cons b bs ih => intro s k; exact ih { s with v := s.v.setIfInBounds k b } (k + 1)

/-- What each register holds after a block load: the byte loaded into it, or what it held (R165). -/
theorem State.getV_setRegsFrom (bs : List Byte) : ∀ (s : State) (k : Nat) (q : RegIx),
    (s.setRegsFrom k bs).getV q =
      if k ≤ q.val ∧ q.val < k + bs.length then bs.getD (q.val - k) 0 else s.getV q := by
  induction bs with
  | nil =>
    intro s k q
    have h : ¬ (k ≤ q.val ∧ q.val < k + ([] : List Byte).length) := by simp only [List.length_nil]; omega
    rw [if_neg h]; rfl
  | cons b bs ih =>
    intro s k q
    simp only [State.setRegsFrom]
    rw [ih]
    have hget : State.getV { s with v := s.v.setIfInBounds k b } q = if q.val = k then b else s.getV q := by
      simp only [State.getV, Fin.getElem_fin]
      rw [Vector.getElem_setIfInBounds]
      by_cases h : q.val = k
      · simp [h]
      · simp [h, Ne.symm h]
    rw [hget]
    simp only [List.length_cons]
    by_cases hq : q.val = k
    · have h1 : ¬ (k + 1 ≤ q.val ∧ q.val < k + 1 + bs.length) := by omega
      have h2 : k ≤ q.val ∧ q.val < k + (bs.length + 1) := by omega
      have h3 : q.val - k = 0 := by omega
      rw [if_neg h1, if_pos hq, if_pos h2, h3, List.getD_cons_zero]
    · by_cases hin : k + 1 ≤ q.val ∧ q.val < k + 1 + bs.length
      · have h1 : k ≤ q.val ∧ q.val < k + (bs.length + 1) := by omega
        have h2 : q.val - k = (q.val - (k + 1)) + 1 := by omega
        simp only [hin, h1, and_self, if_true, h2, List.getD_cons_succ]
      · have h1 : ¬ (k ≤ q.val ∧ q.val < k + (bs.length + 1)) := by omega
        simp only [hin, h1, hq, if_false]

/-! ### The glyph address -/

/-- The glyph address is FONT_BASE + 5 times the low nibble; it never leaves the font region (R162). -/
theorem glyphAddr_toNat (cfg : Config) (v : Byte) :
    (glyphAddr cfg v).toNat = cfg.fontBase.val + 5 * (v.toNat % 16) := by
  have hm : (v &&& 0x0F).toNat = v.toNat % 16 := by
    rw [BitVec.toNat_and]; exact Nat.and_two_pow_sub_one_eq_mod _ 4
  have := cfg.fontBase.isLt
  rw [glyphAddr, hm, BitVec.toNat_ofNat]
  omega

/-! ### The end of a tick -/

/-- A timer counts down by one and never goes below 0 (R223). -/
theorem countdown_toNat (t : Byte) : (countdown t).toNat = t.toNat - 1 := by
  unfold countdown
  split
  · rename_i h
    have hpos : t.toNat ≠ 0 := fun e => h (BitVec.eq_of_toNat_eq (by simpa using e))
    have h1 : (1 : Byte).toNat = 1 := rfl
    have := t.isLt
    rw [BitVec.toNat_sub, h1]
    omega
  · rename_i h
    have h0 : t = 0 := by simpa using h
    subst h0; rfl

theorem endTick_completed {s : State} (h : s.fault.code = .none) : endTick s = useInputs (timerCountdown s) := by
  simp [endTick, State.halted, h]

theorem endTick_faulted {s : State} (h : s.fault.code ≠ .none) : endTick s = useInputs s := by
  simp [endTick, State.halted, h]

/-! ### A block write changes memory alone -/

@[simp] theorem State.setBytes_v (s : State) (a : Nat) (bs : List Byte) : (s.setBytes a bs).v = s.v := by
  rw [State.setBytes_eq]
@[simp] theorem State.setBytes_i (s : State) (a : Nat) (bs : List Byte) : (s.setBytes a bs).i = s.i := by
  rw [State.setBytes_eq]
@[simp] theorem State.setBytes_pc (s : State) (a : Nat) (bs : List Byte) : (s.setBytes a bs).pc = s.pc := by
  rw [State.setBytes_eq]
@[simp] theorem State.setBytes_stack (s : State) (a : Nat) (bs : List Byte) : (s.setBytes a bs).stack = s.stack := by
  rw [State.setBytes_eq]
@[simp] theorem State.setBytes_sp (s : State) (a : Nat) (bs : List Byte) : (s.setBytes a bs).sp = s.sp := by
  rw [State.setBytes_eq]
@[simp] theorem State.setBytes_dt (s : State) (a : Nat) (bs : List Byte) : (s.setBytes a bs).dt = s.dt := by
  rw [State.setBytes_eq]
@[simp] theorem State.setBytes_st (s : State) (a : Nat) (bs : List Byte) : (s.setBytes a bs).st = s.st := by
  rw [State.setBytes_eq]
@[simp] theorem State.setBytes_fb (s : State) (a : Nat) (bs : List Byte) : (s.setBytes a bs).fb = s.fb := by
  rw [State.setBytes_eq]
@[simp] theorem State.setBytes_fault (s : State) (a : Nat) (bs : List Byte) : (s.setBytes a bs).fault = s.fault := by
  rw [State.setBytes_eq]
@[simp] theorem State.setBytes_keys (s : State) (a : Nat) (bs : List Byte) : (s.setBytes a bs).keys = s.keys := by
  rw [State.setBytes_eq]
@[simp] theorem State.setBytes_rndIn (s : State) (a : Nat) (bs : List Byte) : (s.setBytes a bs).rndIn = s.rndIn := by
  rw [State.setBytes_eq]
@[simp] theorem State.setBytes_draws (s : State) (a : Nat) (bs : List Byte) : (s.setBytes a bs).draws = s.draws := by
  rw [State.setBytes_eq]
@[simp] theorem State.setBytes_loaded (s : State) (a : Nat) (bs : List Byte) : (s.setBytes a bs).loaded = s.loaded := by
  rw [State.setBytes_eq]
@[simp] theorem State.setBytes_ticked (s : State) (a : Nat) (bs : List Byte) : (s.setBytes a bs).ticked = s.ticked := by
  rw [State.setBytes_eq]
@[simp] theorem State.setBytes_cfg (s : State) (a : Nat) (bs : List Byte) : (s.setBytes a bs).cfg = s.cfg := by
  rw [State.setBytes_eq]

/-! ### A block load changes the general registers alone -/

@[simp] theorem State.setRegsFrom_i (s : State) (k : Nat) (bs : List Byte) : (s.setRegsFrom k bs).i = s.i := by
  rw [State.setRegsFrom_eq]
@[simp] theorem State.setRegsFrom_pc (s : State) (k : Nat) (bs : List Byte) : (s.setRegsFrom k bs).pc = s.pc := by
  rw [State.setRegsFrom_eq]
@[simp] theorem State.setRegsFrom_stack (s : State) (k : Nat) (bs : List Byte) : (s.setRegsFrom k bs).stack = s.stack := by
  rw [State.setRegsFrom_eq]
@[simp] theorem State.setRegsFrom_sp (s : State) (k : Nat) (bs : List Byte) : (s.setRegsFrom k bs).sp = s.sp := by
  rw [State.setRegsFrom_eq]
@[simp] theorem State.setRegsFrom_dt (s : State) (k : Nat) (bs : List Byte) : (s.setRegsFrom k bs).dt = s.dt := by
  rw [State.setRegsFrom_eq]
@[simp] theorem State.setRegsFrom_st (s : State) (k : Nat) (bs : List Byte) : (s.setRegsFrom k bs).st = s.st := by
  rw [State.setRegsFrom_eq]
@[simp] theorem State.setRegsFrom_mem (s : State) (k : Nat) (bs : List Byte) : (s.setRegsFrom k bs).mem = s.mem := by
  rw [State.setRegsFrom_eq]
@[simp] theorem State.setRegsFrom_fb (s : State) (k : Nat) (bs : List Byte) : (s.setRegsFrom k bs).fb = s.fb := by
  rw [State.setRegsFrom_eq]
@[simp] theorem State.setRegsFrom_fault (s : State) (k : Nat) (bs : List Byte) : (s.setRegsFrom k bs).fault = s.fault := by
  rw [State.setRegsFrom_eq]
@[simp] theorem State.setRegsFrom_keys (s : State) (k : Nat) (bs : List Byte) : (s.setRegsFrom k bs).keys = s.keys := by
  rw [State.setRegsFrom_eq]
@[simp] theorem State.setRegsFrom_rndIn (s : State) (k : Nat) (bs : List Byte) : (s.setRegsFrom k bs).rndIn = s.rndIn := by
  rw [State.setRegsFrom_eq]
@[simp] theorem State.setRegsFrom_draws (s : State) (k : Nat) (bs : List Byte) : (s.setRegsFrom k bs).draws = s.draws := by
  rw [State.setRegsFrom_eq]
@[simp] theorem State.setRegsFrom_loaded (s : State) (k : Nat) (bs : List Byte) : (s.setRegsFrom k bs).loaded = s.loaded := by
  rw [State.setRegsFrom_eq]
@[simp] theorem State.setRegsFrom_ticked (s : State) (k : Nat) (bs : List Byte) : (s.setRegsFrom k bs).ticked = s.ticked := by
  rw [State.setRegsFrom_eq]
@[simp] theorem State.setRegsFrom_cfg (s : State) (k : Nat) (bs : List Byte) : (s.setRegsFrom k bs).cfg = s.cfg := by
  rw [State.setRegsFrom_eq]

/-! ### A flag commit changes the general registers alone -/

@[simp] theorem commit_i (f : Byte → Byte → Bool) (r : Byte → Byte → Byte) (x y : RegIx) (s : State) : (commit f r x y s).i = s.i := by
  rw [commit_eq]
@[simp] theorem commit_pc (f : Byte → Byte → Bool) (r : Byte → Byte → Byte) (x y : RegIx) (s : State) : (commit f r x y s).pc = s.pc := by
  rw [commit_eq]
@[simp] theorem commit_stack (f : Byte → Byte → Bool) (r : Byte → Byte → Byte) (x y : RegIx) (s : State) : (commit f r x y s).stack = s.stack := by
  rw [commit_eq]
@[simp] theorem commit_sp (f : Byte → Byte → Bool) (r : Byte → Byte → Byte) (x y : RegIx) (s : State) : (commit f r x y s).sp = s.sp := by
  rw [commit_eq]
@[simp] theorem commit_dt (f : Byte → Byte → Bool) (r : Byte → Byte → Byte) (x y : RegIx) (s : State) : (commit f r x y s).dt = s.dt := by
  rw [commit_eq]
@[simp] theorem commit_st (f : Byte → Byte → Bool) (r : Byte → Byte → Byte) (x y : RegIx) (s : State) : (commit f r x y s).st = s.st := by
  rw [commit_eq]
@[simp] theorem commit_mem (f : Byte → Byte → Bool) (r : Byte → Byte → Byte) (x y : RegIx) (s : State) : (commit f r x y s).mem = s.mem := by
  rw [commit_eq]
@[simp] theorem commit_fb (f : Byte → Byte → Bool) (r : Byte → Byte → Byte) (x y : RegIx) (s : State) : (commit f r x y s).fb = s.fb := by
  rw [commit_eq]
@[simp] theorem commit_fault (f : Byte → Byte → Bool) (r : Byte → Byte → Byte) (x y : RegIx) (s : State) : (commit f r x y s).fault = s.fault := by
  rw [commit_eq]
@[simp] theorem commit_keys (f : Byte → Byte → Bool) (r : Byte → Byte → Byte) (x y : RegIx) (s : State) : (commit f r x y s).keys = s.keys := by
  rw [commit_eq]
@[simp] theorem commit_rndIn (f : Byte → Byte → Bool) (r : Byte → Byte → Byte) (x y : RegIx) (s : State) : (commit f r x y s).rndIn = s.rndIn := by
  rw [commit_eq]
@[simp] theorem commit_draws (f : Byte → Byte → Bool) (r : Byte → Byte → Byte) (x y : RegIx) (s : State) : (commit f r x y s).draws = s.draws := by
  rw [commit_eq]
@[simp] theorem commit_loaded (f : Byte → Byte → Bool) (r : Byte → Byte → Byte) (x y : RegIx) (s : State) : (commit f r x y s).loaded = s.loaded := by
  rw [commit_eq]
@[simp] theorem commit_ticked (f : Byte → Byte → Bool) (r : Byte → Byte → Byte) (x y : RegIx) (s : State) : (commit f r x y s).ticked = s.ticked := by
  rw [commit_eq]
@[simp] theorem commit_cfg (f : Byte → Byte → Bool) (r : Byte → Byte → Byte) (x y : RegIx) (s : State) : (commit f r x y s).cfg = s.cfg := by
  rw [commit_eq]

end Sys2Proof.Machine
end

