-- ==== Sys2Proof/Laws/Exec.lean ====
section
/-! SUPPORT. What a meaning and a step can do, said once: an instruction completes, keeping FAULT, the inputs and the
parameters, or takes the fault it raises; a step is a halted tick, a faulted fetch or the end of an instruction. -/

namespace Sys2Proof.Machine

/-- What a completed instruction never changes. -/
structure KeepsInputs (s t : State) : Prop where
  fault : t.fault = s.fault
  keys : t.keys = s.keys
  rndIn : t.rndIn = s.rndIn
  draws : t.draws = s.draws
  loaded : t.loaded = s.loaded
  ticked : t.ticked = s.ticked
  cfg : t.cfg = s.cfg

/-- A state that keeps these seven fields of `s` by definition. -/
theorem KeepsInputs.of_eq {s t : State} (h : (t.fault, t.keys, t.rndIn, t.draws, t.loaded, t.ticked, t.cfg) =
    (s.fault, s.keys, s.rndIn, s.draws, s.loaded, s.ticked, s.cfg)) : KeepsInputs s t := by
  simp only [Prod.mk.injEq] at h
  exact ⟨h.1, h.2.1, h.2.2.1, h.2.2.2.1, h.2.2.2.2.1, h.2.2.2.2.2.1, h.2.2.2.2.2.2⟩

theorem setBytes_keepsInputs (s : State) (a : Nat) (bs : List Byte) : KeepsInputs s (s.setBytes a bs) := by
  rw [State.setBytes_eq]; exact .of_eq rfl

theorem setRegsFrom_keepsInputs (s : State) (k : Nat) (bs : List Byte) : KeepsInputs s (s.setRegsFrom k bs) := by
  rw [State.setRegsFrom_eq]; exact .of_eq rfl

theorem commit_keepsInputs (f : Byte → Byte → Bool) (r : Byte → Byte → Byte) (x y : RegIx) (s : State) :
    KeepsInputs s (commit f r x y s) := by
  rw [commit_eq]; exact .of_eq rfl

theorem skipIf_keepsInputs (c : Bool) (s : State) : KeepsInputs s (s.skipIf c) := by
  cases c <;> exact .of_eq rfl

/-- A change of the advanced state is a change of the state at the start of the tick. -/
theorem KeepsInputs.of_advance {s t : State} (h : KeepsInputs s.advance t) : KeepsInputs s t :=
  ⟨h.fault, h.keys, h.rndIn, h.draws, h.loaded, h.ticked, h.cfg⟩

/-- A handler that keeps the inputs completes keeping them, or the fault it raises is taken. -/
theorem runHandler_keeps {h : Handler} {s : State} (hk : ∀ t, h s.advance = .ok t → KeepsInputs s.advance t)
    (hr : ∀ r, h s.advance = .error r → r.code ≠ .none) :
    ∃ t, runHandler h s = .next t ∧ (KeepsInputs s t ∨ ∃ r, r.code ≠ .none ∧ t = raiseFault s r) := by
  obtain ⟨t, ht⟩ := runHandler_next h s
  refine ⟨t, ht, ?_⟩
  rcases runHandler_cases ht with hok | ⟨r, her, rfl⟩
  · exact .inl (hk t hok).of_advance
  · exact .inr ⟨r, hr r her, rfl⟩

/-- A block read raises MEM_OUT_OF_RANGE or nothing. -/
theorem readBlock_error {s : State} {a n : Nat} {r : Raise} (h : readBlock s a n = .error r) :
    r.code = .memOutOfRange := by
  rw [readBlock_spec] at h
  split at h
  · cases h
  · cases h; rfl

/-- A block write raises MEM_OUT_OF_RANGE or nothing. -/
theorem writeBlock_error {s : State} {a : Nat} {bs : List Byte} {r : Raise} (h : writeBlock s a bs = .error r) :
    r.code = .memOutOfRange := by
  rw [writeBlock_spec] at h
  split at h
  · cases h
  · cases h; rfl

theorem writeBlock_keeps {s t : State} {a : Nat} {bs : List Byte} (h : writeBlock s a bs = .ok t) :
    KeepsInputs s t := by
  rw [writeBlock_spec] at h
  split at h
  · cases h; exact setBytes_keepsInputs s a bs
  · cases h

/-- A key index raises KEY_OUT_OF_RANGE or nothing. -/
theorem keyIndex_error {v : Byte} {r : Raise} (h : keyIndex v = .error r) : r.code = .keyOutOfRange := by
  unfold keyIndex at h
  split at h
  · cases h
  · cases h; rfl

/-! ### The handlers that can raise -/

/-- All RET's pop can do. -/
theorem pop_keeps (s : State) :
    (∀ t, s.pop = .ok t → KeepsInputs s t) ∧ ∀ r, s.pop = .error r → r.code ≠ .none := by
  by_cases hs : s.sp.val = 0
  · rw [State.pop, dif_pos hs]; exact ⟨nofun, by rintro r ⟨⟩; exact nofun⟩
  · rw [State.pop, dif_neg hs]; exact ⟨by rintro t ⟨⟩; exact .of_eq rfl, nofun⟩

theorem callHandler_keeps (nnn : BitVec 12) (s : State) :
    (∀ t, callHandler nnn s = .ok t → KeepsInputs s t) ∧ ∀ r, callHandler nnn s = .error r → r.code ≠ .none := by
  by_cases hs : s.sp.val < 16
  · rw [callHandler, State.push_notFull hs]; exact ⟨by rintro t ⟨⟩; exact .of_eq rfl, nofun⟩
  · rw [callHandler, State.push, dif_neg hs]; exact ⟨nofun, by rintro r ⟨⟩; exact nofun⟩

theorem drwHandler_keeps (x y : RegIx) (n : BitVec 4) (s : State) :
    (∀ t, drwHandler x y n s = .ok t → KeepsInputs s t) ∧ ∀ r, drwHandler x y n s = .error r → r.code ≠ .none := by
  unfold drwHandler
  split
  · rename_i e; exact ⟨nofun, by rintro r ⟨⟩; rw [readBlock_error e]; exact nofun⟩
  · exact ⟨by rintro t ⟨⟩; exact .of_eq rfl, nofun⟩

theorem skpHandler_keeps (x : RegIx) (s : State) :
    (∀ t, skpHandler x s = .ok t → KeepsInputs s t) ∧ ∀ r, skpHandler x s = .error r → r.code ≠ .none := by
  unfold skpHandler
  split
  · rename_i e; exact ⟨nofun, by rintro r ⟨⟩; rw [keyIndex_error e]; exact nofun⟩
  · exact ⟨by rintro t ⟨⟩; exact skipIf_keepsInputs _ _, nofun⟩

theorem sknpHandler_keeps (x : RegIx) (s : State) :
    (∀ t, sknpHandler x s = .ok t → KeepsInputs s t) ∧ ∀ r, sknpHandler x s = .error r → r.code ≠ .none := by
  unfold sknpHandler
  split
  · rename_i e; exact ⟨nofun, by rintro r ⟨⟩; rw [keyIndex_error e]; exact nofun⟩
  · exact ⟨by rintro t ⟨⟩; exact skipIf_keepsInputs _ _, nofun⟩

theorem loadRegsHandler_keeps (x : RegIx) (s : State) :
    (∀ t, loadRegsHandler x s = .ok t → KeepsInputs s t) ∧ ∀ r, loadRegsHandler x s = .error r → r.code ≠ .none := by
  unfold loadRegsHandler
  split
  · rename_i e; exact ⟨nofun, by rintro r ⟨⟩; rw [readBlock_error e]; exact nofun⟩
  · exact ⟨by rintro t ⟨⟩; exact setRegsFrom_keepsInputs _ _ _, nofun⟩

theorem writeBlock_keeps' (s : State) (a : Nat) (bs : List Byte) :
    (∀ t, writeBlock s a bs = .ok t → KeepsInputs s t) ∧ ∀ r, writeBlock s a bs = .error r → r.code ≠ .none :=
  ⟨fun _ h => writeBlock_keeps h, fun _ h => by rw [writeBlock_error h]; exact nofun⟩

/-! ### Every instruction, every step -/

/-- All any instruction can do: complete, keeping FAULT, the inputs and the parameters, or take a fault. -/
theorem exec_cases (i : Instr) (s : State) :
    ∃ t, exec i s = .next t ∧ (KeepsInputs s t ∨ ∃ r, r.code ≠ .none ∧ t = raiseFault s r) := by
  cases i with
  | ret => exact runHandler_keeps (pop_keeps _).1 (pop_keeps _).2
  | call nnn => exact runHandler_keeps (callHandler_keeps nnn _).1 (callHandler_keeps nnn _).2
  | drw x y n => exact runHandler_keeps (drwHandler_keeps x y n _).1 (drwHandler_keeps x y n _).2
  | skp x => exact runHandler_keeps (skpHandler_keeps x _).1 (skpHandler_keeps x _).2
  | sknp x => exact runHandler_keeps (sknpHandler_keeps x _).1 (sknpHandler_keeps x _).2
  | ldB x => exact runHandler_keeps (h := ldBHandler x) (writeBlock_keeps' _ _ _).1 (writeBlock_keeps' _ _ _).2
  | storeRegs x =>
    exact runHandler_keeps (h := storeRegsHandler x) (writeBlock_keeps' _ _ _).1 (writeBlock_keeps' _ _ _).2
  | loadRegs x => exact runHandler_keeps (loadRegsHandler_keeps x _).1 (loadRegsHandler_keeps x _).2
  | addReg x y => exact ⟨_, rfl, .inl (commit_keepsInputs _ _ _ _ _).of_advance⟩
  | subReg x y => exact ⟨_, rfl, .inl (commit_keepsInputs _ _ _ _ _).of_advance⟩
  | subnReg x y => exact ⟨_, rfl, .inl (commit_keepsInputs _ _ _ _ _).of_advance⟩
  | shr x => exact ⟨_, rfl, .inl (commit_keepsInputs _ _ _ _ _).of_advance⟩
  | shl x => exact ⟨_, rfl, .inl (commit_keepsInputs _ _ _ _ _).of_advance⟩
  | seImm x nn => exact ⟨_, rfl, .inl (skipIf_keepsInputs _ _).of_advance⟩
  | sneImm x nn => exact ⟨_, rfl, .inl (skipIf_keepsInputs _ _).of_advance⟩
  | seReg x y => exact ⟨_, rfl, .inl (skipIf_keepsInputs _ _).of_advance⟩
  | sneReg x y => exact ⟨_, rfl, .inl (skipIf_keepsInputs _ _).of_advance⟩
  | rnd x nn =>
    refine ⟨_, rfl, .inl ?_⟩
    dsimp only
    split <;> exact .of_eq rfl
  | ldVxK x =>
    refine ⟨_, rfl, .inl ?_⟩
    dsimp only
    split <;> exact .of_eq rfl
  | cls | jp _ | ldImm _ _ | addImm _ _ | ldReg _ _ | orReg _ _ | andReg _ _ | xorReg _ _ | ldI _ | jpV0 _ =>
    exact ⟨_, rfl, .inl (.of_eq rfl)⟩
  | ldVxDt _ | ldDtVx _ | ldStVx _ | addI _ | ldF _ | unknown _ => exact ⟨_, rfl, .inl (.of_eq rfl)⟩

/-- All a step can do (R81). -/
theorem step_cases {s u : State} (h : step s = .next u) :
    (s.fault.code ≠ .none ∧ u = s) ∨
    (s.fault.code = .none ∧ 0x0FFE < s.pc.toNat ∧ u = useInputs (raiseFault s ⟨.fetchOutOfRange, s.pc⟩)) ∨
    (s.fault.code = .none ∧ s.pc.toNat ≤ 0x0FFE ∧
      ∃ t, exec (decode s.cfg (wordOfBytes (s.byteAt s.pc.toNat) (s.byteAt (s.pc.toNat + 1)))) s = .next t ∧
        u = endTick t) := by
  unfold step at h
  by_cases hh : s.fault.code = .none
  · rw [if_neg (by simp [State.halted, hh])] at h
    by_cases hp : 0x0FFE < s.pc.toNat
    · refine .inr (.inl ⟨hh, hp, ?_⟩)
      simp only [fetch, gt_iff_lt, hp, if_true, Host.Outcome.next.injEq] at h
      rw [← h, endTick_faulted (by simp)]
    · refine .inr (.inr ⟨hh, by omega, ?_⟩)
      simp only [fetch, gt_iff_lt, hp, if_false] at h
      obtain ⟨t, ht, -⟩ := exec_cases (decode s.cfg (wordOfBytes (s.byteAt s.pc.toNat) (s.byteAt (s.pc.toNat + 1)))) s
      rw [ht] at h
      exact ⟨t, ht, by simpa using h.symm⟩
  · rw [if_pos (by simp [State.halted, hh])] at h
    exact .inl ⟨hh, by simpa using h.symm⟩

end Sys2Proof.Machine
end

