-- ==== Sys2Proof/Laws/Meanings.lean ====
section
/-! SUPPORT. One equation per meaning that can raise, a step as the instruction it runs, and the terms of the claims
(words by division, countdowns by subtraction, covered pixels) as the functions of the model. -/

namespace Sys2Proof.Machine

/-! ### The claims' terms -/

/-- The big-endian word of two bytes, by arithmetic (R52). -/
theorem ofNat_eq_wordOfBytes (hi lo : Byte) : BitVec.ofNat 16 (256 * hi.toNat + lo.toNat) = wordOfBytes hi lo := by
  apply BitVec.eq_of_toNat_eq
  rw [wordOfBytes_toNat, BitVec.toNat_ofNat]
  have := hi.isLt; have := lo.isLt
  omega

/-- The countdown, by truncated subtraction (R223). -/
theorem ofNat_eq_countdown (t : Byte) : BitVec.ofNat 8 (t.toNat - 1) = countdown t := by
  apply BitVec.eq_of_toNat_eq
  rw [countdown_toNat, BitVec.toNat_ofNat]
  have := t.isLt
  omega

theorem flagByte_toNat (c : Bool) : (flagByte c).toNat = if c then 1 else 0 := by cases c <;> rfl

/-- The pixel the edge rule gives is the pixel the bit lands on. -/
theorem edge_eq_some_iff {e : DrawEdge} {cx cy : Nat} {px : Fin 64} {py : Fin 32} :
    edge e cx cy = some (px, py) ↔ lands e cx cy px py := by
  cases e
  · simp only [edge, lands, Option.dite_none_right_eq_some, Option.some.injEq, Prod.mk.injEq, Fin.ext_iff]
    exact ⟨fun ⟨_, h⟩ => h, fun h => ⟨by omega, h⟩⟩
  · simp [edge, lands, Fin.ext_iff]

/-- The covered pixels are the sprite's targets. -/
theorem State.covers_iff (s : State) (x y : RegIx) (n : BitVec 4) (px : Fin 64) (py : Fin 32) :
    s.covers x y n px py ↔ (px, py) ∈ spriteTargets s.cfg.drawEdge (originX (s.getV x)) (originY (s.getV y))
      (s.bytesAt s.indexAddr n.toNat) := by
  rw [mem_spriteTargets, State.covers]
  simp only [State.bytesAt_length, edge_eq_some_iff, spriteBit, originX, originY]
  refine exists_congr fun r => exists_congr fun c => and_congr_right fun hr => ?_
  rw [List.getD_eq_getElem _ _ (by simpa using hr), State.bytesAt_getElem]

/-! ### A step as the instruction it runs -/

theorem fetch_inRange {s : State} (h : s.pc.toNat ≤ 0xFFE) :
    fetch s = .ok (wordOfBytes (s.byteAt s.pc.toNat) (s.byteAt (s.pc.toNat + 1))) := by
  simp [fetch, Nat.not_lt.mpr h]

theorem fetch_outOfRange {s : State} (h : 0xFFE < s.pc.toNat) : fetch s = .error ⟨.fetchOutOfRange, s.pc⟩ := by
  simp [fetch, h]

/-- The next instruction is the one fetched and decoded. -/
theorem State.nextInstr_eq_some {s : State} {i : Instr} (h : s.nextInstr = some i) :
    s.pc.toNat ≤ 0xFFE ∧ decode s.cfg (wordOfBytes (s.byteAt s.pc.toNat) (s.byteAt (s.pc.toNat + 1))) = i := by
  unfold State.nextInstr at h
  by_cases hp : s.pc.toNat ≤ 0xFFE
  · rw [fetch_inRange hp] at h; exact ⟨hp, Option.some.inj h⟩
  · rw [fetch_outOfRange (by omega)] at h; cases h

/-- A step of a core that is not halted is its next instruction and the end of the tick (R81). -/
theorem step_nextInstr {s t : State} {i : Instr} (hf : s.fault.code = .none) (hi : s.nextInstr = some i)
    (he : exec i s = .next t) : step s = .next (endTick t) := by
  obtain ⟨hp, hd⟩ := State.nextInstr_eq_some hi
  simp [step, State.halted, hf, fetch_inRange hp, hd, he]

/-- Ticks from the last one on. -/
theorem State.ticks_succ_eq_tick (k : Nat) : ∀ s : State, State.ticks (k + 1) s = (State.ticks k s).tick := by
  induction k with
  | zero => exact fun _ => rfl
  | succ k ih => exact fun s => ih s.tick

/-- A tick is the state its step answers: every step answers one. -/
theorem step_eq_tick (s : State) : step s = .next s.tick := by
  suffices h : ∃ u, step s = .next u by
    obtain ⟨u, hu⟩ := h
    simp [State.tick, hu]
  by_cases hf : s.fault.code = .none
  · unfold step
    rw [if_neg (by simp [hf])]
    split
    · exact ⟨_, rfl⟩
    · obtain ⟨t, ht, -⟩ := exec_cases (decode s.cfg ‹Word›) s
      exact ⟨endTick t, by rw [ht]⟩
  · exact ⟨s, by simp [step, hf]⟩

/-- A loaded program is a block of bytes (R273). -/
theorem State.copyIn_eq_setBytes (bs : List Byte) : ∀ (s : State) (a : Nat), s.copyIn a bs = s.setBytes a bs := by
  induction bs with
  | nil => exact fun _ _ => rfl
  | cons b bs ih => exact fun s a => ih (s.setByte a b) (a + 1)

/-! ### The meanings that can raise -/

@[simp] theorem State.advance_indexAddr (s : State) : s.advance.indexAddr = s.indexAddr := rfl

@[simp] theorem State.advance_bytesAt (s : State) (a n : Nat) : s.advance.bytesAt a n = s.bytesAt a n := by
  apply List.ext_getElem (by simp)
  intro k h1 h2
  rw [State.bytesAt_getElem, State.bytesAt_getElem, State.advance_byteAt]

/-- All RET can do (R101). -/
theorem exec_ret (s : State) : exec .ret s =
    if _ : s.sp.val = 0 then .next (raiseFault s ⟨.stackUnderflow, 0⟩)
    else .next { s with sp := ⟨s.sp.val - 1, by omega⟩, pc := s.stack[s.sp.val - 1]'(by omega) } := by
  split
  · exact runHandler_error (State.pop_empty (Fin.ext ‹_›))
  · exact runHandler_ok (State.pop_notEmpty ‹_›)

/-- All CALL can do (R103). -/
theorem exec_call (nnn : BitVec 12) (s : State) : exec (.call nnn) s =
    if h : s.sp.val < 16 then
      .next { s with stack := s.stack.set s.sp.val (s.pc + 2), sp := ⟨s.sp.val + 1, by omega⟩, pc := nnn.setWidth 16 }
    else .next (raiseFault s ⟨.stackOverflow, 0⟩) := by
  split
  · rename_i h
    exact runHandler_ok (h := callHandler nnn) (by rw [callHandler, State.push_notFull (s := s.advance) h]; rfl)
  · rename_i h
    have hs : s.advance.sp = 16 := Fin.ext (by have := s.sp.isLt; simp; omega)
    exact runHandler_error (h := callHandler nnn) (by rw [callHandler, State.push_full hs])

/-- All EX9E can do (R200). -/
theorem exec_skp (x : RegIx) (s : State) : exec (.skp x) s =
    if h : (s.getV x).toNat < 16 then .next (s.advance.skipIf (s.pressed ⟨(s.getV x).toNat, h⟩))
    else .next (raiseFault s ⟨.keyOutOfRange, (s.getV x).setWidth 16⟩) := by
  split
  · rename_i h
    exact runHandler_ok (h := skpHandler x) (by rw [skpHandler, State.advance_getV, keyIndex_inRange h]; rfl)
  · exact runHandler_error (h := skpHandler x)
      (by rw [skpHandler, State.advance_getV, keyIndex_outOfRange (Nat.not_lt.mp ‹_›)])

/-- All EXA1 can do (R201). -/
theorem exec_sknp (x : RegIx) (s : State) : exec (.sknp x) s =
    if h : (s.getV x).toNat < 16 then .next (s.advance.skipIf (!s.pressed ⟨(s.getV x).toNat, h⟩))
    else .next (raiseFault s ⟨.keyOutOfRange, (s.getV x).setWidth 16⟩) := by
  split
  · rename_i h
    exact runHandler_ok (h := sknpHandler x) (by rw [sknpHandler, State.advance_getV, keyIndex_inRange h]; rfl)
  · exact runHandler_error (h := sknpHandler x)
      (by rw [sknpHandler, State.advance_getV, keyIndex_outOfRange (Nat.not_lt.mp ‹_›)])

/-- All DXYN can do (R180). -/
theorem exec_drw (x y : RegIx) (n : BitVec 4) (s : State) : exec (.drw x y n) s =
    if n.toNat = 0 ∨ s.indexAddr + n.toNat ≤ memSize then
      .next ({ s.advance with fb := (s.drawn x y (s.bytesAt s.indexAddr n.toNat)).fb }.setV vf
        (flagByte (s.drawn x y (s.bytesAt s.indexAddr n.toNat)).hit))
    else .next (raiseFault s ⟨.memOutOfRange, BitVec.ofNat 16 (max s.indexAddr memSize)⟩) := by
  split
  · rename_i h
    refine runHandler_ok (h := drwHandler x y n) ?_
    rw [drwHandler, readBlock_spec, State.advance_indexAddr, if_pos h, State.advance_bytesAt]; rfl
  · rename_i h
    refine runHandler_error (h := drwHandler x y n) ?_
    rw [drwHandler, readBlock_spec, State.advance_indexAddr, if_neg h]

/-- All FX33 can do (R163). -/
theorem exec_ldB (x : RegIx) (s : State) : exec (.ldB x) s =
    if s.indexAddr + 3 ≤ memSize then .next (s.advance.setBytes s.indexAddr (bcdDigits (s.getV x)))
    else .next (raiseFault s ⟨.memOutOfRange, BitVec.ofNat 16 (max s.indexAddr memSize)⟩) := by
  have hl : (bcdDigits (s.getV x)).length = 3 := rfl
  have hw := writeBlock_spec (bcdDigits (s.getV x)) s.advance s.indexAddr
  rw [hl] at hw
  split
  · rename_i h
    exact runHandler_ok (h := ldBHandler x) (hw.trans (if_pos (.inr h)))
  · rename_i h
    exact runHandler_error (h := ldBHandler x) (hw.trans (if_neg (by simpa [bcdDigits] using h)))

/-- All FX55 can do (R164). -/
theorem exec_storeRegs (x : RegIx) (s : State) : exec (.storeRegs x) s =
    if s.indexAddr + (x.val + 1) ≤ memSize then .next (s.advance.setBytes s.indexAddr (s.regsTo x))
    else .next (raiseFault s ⟨.memOutOfRange, BitVec.ofNat 16 (max s.indexAddr memSize)⟩) := by
  have hw := writeBlock_spec (s.regsTo x) s.advance s.indexAddr
  have hne : s.regsTo x ≠ [] := fun h => by have := s.regsTo_length x; rw [h] at this; cases this
  rw [State.regsTo_length] at hw
  split
  · rename_i h
    exact runHandler_ok (h := storeRegsHandler x) (hw.trans (if_pos (.inr h)))
  · rename_i h
    exact runHandler_error (h := storeRegsHandler x) (hw.trans (if_neg (fun h' => h'.elim hne h)))

/-- All FX65 can do (R165). -/
theorem exec_loadRegs (x : RegIx) (s : State) : exec (.loadRegs x) s =
    if s.indexAddr + (x.val + 1) ≤ memSize then
      .next (s.advance.setRegsFrom 0 (s.bytesAt s.indexAddr (x.val + 1)))
    else .next (raiseFault s ⟨.memOutOfRange, BitVec.ofNat 16 (max s.indexAddr memSize)⟩) := by
  split
  · rename_i h
    refine runHandler_ok (h := loadRegsHandler x) ?_
    rw [loadRegsHandler, readBlock_spec, State.advance_indexAddr, if_pos (.inr h), State.advance_bytesAt]
  · rename_i h
    refine runHandler_error (h := loadRegsHandler x) ?_
    rw [loadRegsHandler, readBlock_spec, State.advance_indexAddr, if_neg (by simpa using h)]

/-! ### The meanings that cannot raise -/

/-- All CXNN can do (R141). -/
theorem exec_rnd (x : RegIx) (nn : Byte) (s : State) : exec (.rnd x nn) s =
    match s.cfg.cxnnMode with
    | .random => .next (s.advance.setV x (s.rnd &&& nn))
    | .noop => .next s.advance := by
  cases h : s.cfg.cxnnMode <;> simp [exec, execRnd, h]

/-- All FX0A can do (R202). -/
theorem exec_ldVxK (x : RegIx) (s : State) : exec (.ldVxK x) s =
    match s.scanKeys with
    | some k => .next (s.advance.setV x (BitVec.ofNat 8 k.val))
    | none => .next s := by
  have hs : s.advance.scanKeys = s.scanKeys := rfl
  have hpc : { s.advance with pc := s.advance.pc - 2 } = s := by simp [State.advance]
  cases h : s.scanKeys with
  | some k => simp [exec, execLdVxK, hs, h]
  | none => simp only [exec, execLdVxK, complete_eq, hs, h, hpc]

/-- What an instruction that commits flag `F` and result `R` leaves, from the flag and the result as integers (R142). -/
theorem commitsFlag_of_exec {i : Instr} {x y : RegIx} {f : Config → Nat → Nat → Nat} {r : Nat → Nat → Nat}
    {F : Config → Byte → Byte → Bool} {R : Byte → Byte → Byte}
    (he : ∀ s, exec i s = .next (commit (F s.cfg) R x y s.advance))
    (hF : ∀ c a b, (flagByte (F c a b)).toNat = f c a.toNat b.toNat)
    (hR : ∀ a b, (R a b).toNat = r a.toNat b.toNat) : CommitsFlag i x y f r := by
  intro s
  refine ⟨_, he s, ?_, fun q hx hq => ?_, fun hx => ?_, fun hx => ?_⟩
  · rw [commit_eq]; rfl
  · rw [commit_getV_other hx hq]; rfl
  · have hx' : vf ≠ x := fun h => hx h.symm
    unfold commit
    cases hv : s.cfg.vfDest <;> simp [State.getV_setV, hx, hx', hv, hF, hR]
    by_cases hy : y = vf <;> simp [hy, hF]
  · subst hx
    unfold commit
    cases hv : s.cfg.vfDest <;> simp [State.getV_setV, hv, hF, hR]
    by_cases hy : y = vf <;> simp [hy, hF]

/-- The instructions that raise nothing: each is `complete` of a function of the advanced state. -/
def neverRaises : Instr → Bool
  | .ret | .call _ | .skp _ | .sknp _ | .drw _ _ _ | .ldB _ | .storeRegs _ | .loadRegs _ => false
  | .cls | .jp _ | .seImm _ _ | .sneImm _ _ | .seReg _ _ | .sneReg _ _ | .ldImm _ _ | .addImm _ _ => true
  | .ldReg _ _ | .orReg _ _ | .andReg _ _ | .xorReg _ _ | .addReg _ _ | .subReg _ _ | .shr _ | .subnReg _ _ => true
  | .shl _ | .ldI _ | .jpV0 _ | .rnd _ _ | .ldVxDt _ | .ldVxK _ | .ldDtVx _ | .ldStVx _ | .addI _ | .ldF _ => true
  | .unknown _ => true

/-- Such an instruction completes, keeping FAULT, the inputs, the parameters, SP, the stack and memory. -/
theorem exec_neverRaises {i : Instr} (hi : neverRaises i = true) {s t : State} (h : exec i s = .next t) :
    KeepsInputs s t ∧ t.sp = s.sp ∧ t.stack = s.stack ∧ t.mem = s.mem := by
  have hcommit : ∀ f r x y, exec i s = .next (commit f r x y s.advance) →
      KeepsInputs s t ∧ t.sp = s.sp ∧ t.stack = s.stack ∧ t.mem = s.mem := by
    intro f r x y e
    rw [e, commit_eq] at h
    cases h
    exact ⟨.of_eq rfl, rfl, rfl, rfl⟩
  have hskip : ∀ c, exec i s = .next (s.advance.skipIf c) →
      KeepsInputs s t ∧ t.sp = s.sp ∧ t.stack = s.stack ∧ t.mem = s.mem := by
    intro c e
    rw [e] at h
    cases h
    cases c <;> exact ⟨.of_eq rfl, rfl, rfl, rfl⟩
  cases i with
  | ret | call _ | skp _ | sknp _ | drw _ _ _ | ldB _ | storeRegs _ | loadRegs _ => cases hi
  | addReg _ _ | subReg _ _ | subnReg _ _ | shr _ | shl _ => exact hcommit _ _ _ _ rfl
  | seImm _ _ | sneImm _ _ | seReg _ _ | sneReg _ _ => exact hskip _ rfl
  | rnd x nn =>
    simp only [exec, execRnd, complete_eq, Host.Outcome.next.injEq] at h
    subst h
    split <;> exact ⟨.of_eq rfl, rfl, rfl, rfl⟩
  | ldVxK x =>
    simp only [exec, execLdVxK, complete_eq, Host.Outcome.next.injEq] at h
    subst h
    split <;> exact ⟨.of_eq rfl, rfl, rfl, rfl⟩
  | cls | jp _ | ldImm _ _ | addImm _ _ | ldReg _ _ | orReg _ _ | andReg _ _ | xorReg _ _ | ldI _ | jpV0 _ =>
    cases h; exact ⟨.of_eq rfl, rfl, rfl, rfl⟩
  | ldVxDt _ | ldDtVx _ | ldStVx _ | addI _ | ldF _ | unknown _ =>
    cases h; exact ⟨.of_eq rfl, rfl, rfl, rfl⟩

end Sys2Proof.Machine
end

