-- ==== Sys2Proof/Laws/PerInstr.lean ====
section
/-! SUPPORT. Per-instruction families: EncodingRow says that the word of a well-formed instruction fits its own row of the
opcode map (30_encoding.md §4), and is an unknown opcode only for the fallback. -/

namespace Sys2Proof.Laws.EncodingRow

open Sys2Proof

/-- The encoded word matches its row under the row's mask, and decodes back to an instruction of the same row. -/
def Statement (i : Instr) : Prop :=
  ∀ cfg : Config, i.wellFormed cfg = true →
    encode i &&& i.row.mask = i.row.value ∧ (decode cfg (encode i)).row = i.row

theorem cls : Statement .cls := by
  exact fun _ _ => ⟨rfl, rfl⟩

theorem ret : Statement .ret := by
  exact fun _ _ => ⟨rfl, rfl⟩

theorem jp (nnn : BitVec 12) : Statement (.jp nnn) := by
  refine fun cfg _ => ⟨?_, by simp [encode, decode, Instr.row]⟩
  rw [encode, Instr.row, and_F000_eq, family_wordA12]; rfl

theorem call (nnn : BitVec 12) : Statement (.call nnn) := by
  refine fun cfg _ => ⟨?_, by simp [encode, decode, Instr.row]⟩
  rw [encode, Instr.row, and_F000_eq, family_wordA12]; rfl

theorem seImm (x : RegIx) (nn : Byte) : Statement (.seImm x nn) := by
  refine fun cfg _ => ⟨?_, by simp [encode, decode, Instr.row]⟩
  rw [encode, Instr.row, and_F000_eq, family_wordXNN]; rfl

theorem sneImm (x : RegIx) (nn : Byte) : Statement (.sneImm x nn) := by
  refine fun cfg _ => ⟨?_, by simp [encode, decode, Instr.row]⟩
  rw [encode, Instr.row, and_F000_eq, family_wordXNN]; rfl

theorem seReg (x y : RegIx) : Statement (.seReg x y) := by
  refine fun cfg _ => ⟨?_, by simp [encode, decode, Instr.row]⟩
  rw [encode, Instr.row, and_F000_eq, family_wordXYN]; rfl

theorem ldImm (x : RegIx) (nn : Byte) : Statement (.ldImm x nn) := by
  refine fun cfg _ => ⟨?_, by simp [encode, decode, Instr.row]⟩
  rw [encode, Instr.row, and_F000_eq, family_wordXNN]; rfl

theorem addImm (x : RegIx) (nn : Byte) : Statement (.addImm x nn) := by
  refine fun cfg _ => ⟨?_, by simp [encode, decode, Instr.row]⟩
  rw [encode, Instr.row, and_F000_eq, family_wordXNN]; rfl

theorem ldReg (x y : RegIx) : Statement (.ldReg x y) := by
  refine fun cfg _ => ⟨?_, by simp [encode, decode, decodeFamily8, Instr.row]⟩
  rw [encode, Instr.row, and_F00F_eq, family_wordXYN, fieldN_wordXYN]; rfl

theorem orReg (x y : RegIx) : Statement (.orReg x y) := by
  refine fun cfg _ => ⟨?_, by simp [encode, decode, decodeFamily8, Instr.row]⟩
  rw [encode, Instr.row, and_F00F_eq, family_wordXYN, fieldN_wordXYN]; rfl

theorem andReg (x y : RegIx) : Statement (.andReg x y) := by
  refine fun cfg _ => ⟨?_, by simp [encode, decode, decodeFamily8, Instr.row]⟩
  rw [encode, Instr.row, and_F00F_eq, family_wordXYN, fieldN_wordXYN]; rfl

theorem xorReg (x y : RegIx) : Statement (.xorReg x y) := by
  refine fun cfg _ => ⟨?_, by simp [encode, decode, decodeFamily8, Instr.row]⟩
  rw [encode, Instr.row, and_F00F_eq, family_wordXYN, fieldN_wordXYN]; rfl

theorem addReg (x y : RegIx) : Statement (.addReg x y) := by
  refine fun cfg _ => ⟨?_, by simp [encode, decode, decodeFamily8, Instr.row]⟩
  rw [encode, Instr.row, and_F00F_eq, family_wordXYN, fieldN_wordXYN]; rfl

theorem subReg (x y : RegIx) : Statement (.subReg x y) := by
  refine fun cfg _ => ⟨?_, by simp [encode, decode, decodeFamily8, Instr.row]⟩
  rw [encode, Instr.row, and_F00F_eq, family_wordXYN, fieldN_wordXYN]; rfl

theorem shr (x : RegIx) : Statement (.shr x) := by
  refine fun cfg _ => ⟨?_, by simp [encode, decode, decodeFamily8, Instr.row]⟩
  rw [encode, Instr.row, and_F00F_eq, family_wordXYN, fieldN_wordXYN]; rfl

theorem subnReg (x y : RegIx) : Statement (.subnReg x y) := by
  refine fun cfg _ => ⟨?_, by simp [encode, decode, decodeFamily8, Instr.row]⟩
  rw [encode, Instr.row, and_F00F_eq, family_wordXYN, fieldN_wordXYN]; rfl

theorem shl (x : RegIx) : Statement (.shl x) := by
  refine fun cfg _ => ⟨?_, by simp [encode, decode, decodeFamily8, Instr.row]⟩
  rw [encode, Instr.row, and_F00F_eq, family_wordXYN, fieldN_wordXYN]; rfl

theorem sneReg (x y : RegIx) : Statement (.sneReg x y) := by
  refine fun cfg _ => ⟨?_, by simp [encode, decode, Instr.row]⟩
  rw [encode, Instr.row, and_F000_eq, family_wordXYN]; rfl

theorem ldI (nnn : BitVec 12) : Statement (.ldI nnn) := by
  refine fun cfg _ => ⟨?_, by simp [encode, decode, Instr.row]⟩
  rw [encode, Instr.row, and_F000_eq, family_wordA12]; rfl

theorem jpV0 (nnn : BitVec 12) : Statement (.jpV0 nnn) := by
  refine fun cfg _ => ⟨?_, by simp [encode, decode, Instr.row]⟩
  rw [encode, Instr.row, and_F000_eq, family_wordA12]; rfl

theorem rnd (x : RegIx) (nn : Byte) : Statement (.rnd x nn) := by
  intro cfg h
  have hm : cfg.cxnnMode = .random := by simpa [Instr.wellFormed] using h
  refine ⟨?_, by simp [encode, decode, decodeFamilyC, hm, Instr.row]⟩
  rw [encode, Instr.row, and_F000_eq, family_wordXNN]; rfl

theorem drw (x y : RegIx) (n : BitVec 4) : Statement (.drw x y n) := by
  refine fun cfg _ => ⟨?_, by simp [encode, decode, Instr.row]⟩
  rw [encode, Instr.row, and_F000_eq, family_wordXYN]; rfl

theorem skp (x : RegIx) : Statement (.skp x) := by
  refine fun cfg _ => ⟨?_, by simp [encode, decode, decodeFamilyE, Instr.row]⟩
  rw [encode, Instr.row, and_F00F_eq, family_wordXNN, fieldN_wordXNN]; rfl

theorem sknp (x : RegIx) : Statement (.sknp x) := by
  refine fun cfg _ => ⟨?_, by simp [encode, decode, decodeFamilyE, Instr.row]⟩
  rw [encode, Instr.row, and_F00F_eq, family_wordXNN, fieldN_wordXNN]; rfl

theorem ldVxDt (x : RegIx) : Statement (.ldVxDt x) := by
  refine fun cfg _ => ⟨?_, by simp [encode, decode, decodeFamilyF, Instr.row]⟩
  rw [encode, Instr.row, and_F0FF_eq, family_wordXNN, fieldNN_wordXNN]; rfl

theorem ldVxK (x : RegIx) : Statement (.ldVxK x) := by
  refine fun cfg _ => ⟨?_, by simp [encode, decode, decodeFamilyF, Instr.row]⟩
  rw [encode, Instr.row, and_F0FF_eq, family_wordXNN, fieldNN_wordXNN]; rfl

theorem ldDtVx (x : RegIx) : Statement (.ldDtVx x) := by
  refine fun cfg _ => ⟨?_, by simp [encode, decode, decodeFamilyF, Instr.row]⟩
  rw [encode, Instr.row, and_F0FF_eq, family_wordXNN, fieldNN_wordXNN]; rfl

theorem ldStVx (x : RegIx) : Statement (.ldStVx x) := by
  refine fun cfg _ => ⟨?_, by simp [encode, decode, decodeFamilyF, Instr.row]⟩
  rw [encode, Instr.row, and_F0FF_eq, family_wordXNN, fieldNN_wordXNN]; rfl

theorem addI (x : RegIx) : Statement (.addI x) := by
  refine fun cfg _ => ⟨?_, by simp [encode, decode, decodeFamilyF, Instr.row]⟩
  rw [encode, Instr.row, and_F0FF_eq, family_wordXNN, fieldNN_wordXNN]; rfl

theorem ldF (x : RegIx) : Statement (.ldF x) := by
  refine fun cfg _ => ⟨?_, by simp [encode, decode, decodeFamilyF, Instr.row]⟩
  rw [encode, Instr.row, and_F0FF_eq, family_wordXNN, fieldNN_wordXNN]; rfl

theorem ldB (x : RegIx) : Statement (.ldB x) := by
  refine fun cfg _ => ⟨?_, by simp [encode, decode, decodeFamilyF, Instr.row]⟩
  rw [encode, Instr.row, and_F0FF_eq, family_wordXNN, fieldNN_wordXNN]; rfl

theorem storeRegs (x : RegIx) : Statement (.storeRegs x) := by
  refine fun cfg _ => ⟨?_, by simp [encode, decode, decodeFamilyF, Instr.row]⟩
  rw [encode, Instr.row, and_F0FF_eq, family_wordXNN, fieldNN_wordXNN]; rfl

theorem loadRegs (x : RegIx) : Statement (.loadRegs x) := by
  refine fun cfg _ => ⟨?_, by simp [encode, decode, decodeFamilyF, Instr.row]⟩
  rw [encode, Instr.row, and_F0FF_eq, family_wordXNN, fieldNN_wordXNN]; rfl

theorem unknown (w : Word) : Statement (.unknown w) := by
  intro cfg h
  refine ⟨BitVec.and_zero .., ?_⟩
  rw [encode, decode_of_isUnknownWord h]

end Sys2Proof.Laws.EncodingRow
end

