-- ==== Sys2Proof/Tests/Slice0.lean ====
section
/-! SUPPORT. The model's own tests. Expected values are those of spec/95_test_vectors.md (named in each comment) and of
the encodings of spec/30_encoding.md §4, written out by hand. The witness theorems show states and operands that meet the
hypotheses of each obligation. -/

namespace Sys2Proof.Tests

open Sys2Proof Sys2Proof.Machine

/-! ### Helpers -/

/-- The state with general registers set. -/
def regs (l : List (RegIx × Byte)) (s : State) : State := l.foldl (fun s p => s.setV p.1 p.2) s

/-- The state with bytes of memory set. -/
def bytes (a : Nat) (l : List Byte) (s : State) : State := s.copyIn a l

/-- One tick with the word placed at pc. -/
def run (w : Nat) (s : State) : State := (s.withFetchWord 16 w).tick

/-- The reset state with I set. -/
def withI (i : Word) (s : State) : State := { s with i := i }

/-- The reset state with other parameters. -/
def withCfg (cfg : Config) : State := State.resetWith cfg

/-! ### Well-formedness: ill-formed terms are refused -/

/-- RND is no instruction under CXNN_MODE = noop. -/
theorem test_wf_rnd_noop : (Instr.rnd 3 0xFF).wellFormed { defaultConfig with cxnnMode := .noop } = false := by decide
/-- The word of CLS is not an unknown opcode. -/
theorem test_wf_unknown_cls : (Instr.unknown 0x00E0).wellFormed defaultConfig = false := by decide
/-- Words of families with no unknown opcodes, and of FX65, are not unknown. -/
theorem test_wf_unknown_known :
    [0x1234, 0x5121, 0x800E, 0xD015, 0xE09E, 0xF065].all
      (fun w => !(Instr.unknown w).wellFormed defaultConfig) = true := by decide
/-- A word of family C is unknown under noop only. -/
theorem test_wf_unknown_c : (Instr.unknown 0xC3FF).wellFormed defaultConfig = false ∧
    (Instr.unknown 0xC3FF).wellFormed { defaultConfig with cxnnMode := .noop } = true := by decide
/-- The instructions the host's table words stand for are well formed. -/
theorem test_wf_accepts : [Instr.cls, .jp 0xFFF, .rnd 0xF 0xFF, .drw 0xF 0 0xF, .unknown 0xF0FF].all
    (fun i => i.wellFormed defaultConfig) = true := by decide

/-! ### Decoding: words written out from the encodings of 30_encoding.md §4 -/

theorem test_decode_family0 : [0b0000000000000000, 0b0000000011100000, 0b0000000011101110, 0b0000111111111110,
    0b0000000011100001].map (decode defaultConfig) = [.cls, .cls, .ret, .ret, .unknown 0x00E1] := by decide
theorem test_decode_jumps : [0b0001101010111100, 0b0010010000000000, 0b1011001100000000, 0b1010111111111111].map
    (decode defaultConfig) = [.jp 0xABC, .call 0x400, .jpV0 0x300, .ldI 0xFFF] := by decide
theorem test_decode_skips : [0b0011001101000010, 0b0100001101000010, 0b0101000100100001, 0b1001000100101111].map
    (decode defaultConfig) = [.seImm 3 0x42, .sneImm 3 0x42, .seReg 1 2, .sneReg 1 2] := by decide
theorem test_decode_immediate : [0b0110111110101011, 0b0111001000000011, 0b1100001100001111].map (decode defaultConfig) =
    [.ldImm 0xF 0xAB, .addImm 2 0x03, .rnd 3 0x0F] := by decide
theorem test_decode_family8 : [0b1000000100100000, 0b1000000100100001, 0b1000000100100010, 0b1000000100100011,
    0b1000000100100100, 0b1000000100100101, 0b1000000100100110, 0b1000000100100111, 0b1000000100101110].map
    (decode defaultConfig) = [.ldReg 1 2, .orReg 1 2, .andReg 1 2, .xorReg 1 2, .addReg 1 2, .subReg 1 2, .shr 1,
      .subnReg 1 2, .shl 1] := by decide
theorem test_decode_family8_unknown : [0x8018, 0x8019, 0x801A, 0x801B, 0x801C, 0x801D, 0x801F].all
    (fun w => decode defaultConfig w == .unknown w) = true := by decide
theorem test_decode_draw_keys : [0b1101000000010101, 0b1110000110011110, 0b1110000000001110, 0b1110000110100001,
    0b1110000010100000].map (decode defaultConfig) = [.drw 0 1 5, .skp 1, .skp 0, .sknp 1, .unknown 0xE0A0] := by decide
theorem test_decode_familyF : [0b1111001000000111, 0b1111001100001010, 0b1111001000010101, 0b1111001000011000,
    0b1111001000011110, 0b1111010100101001, 0b1111000000110011, 0b1111001001010101, 0b1111000101100101].map
    (decode defaultConfig) = [.ldVxDt 2, .ldVxK 3, .ldDtVx 2, .ldStVx 2, .addI 2, .ldF 5, .ldB 0, .storeRegs 2,
      .loadRegs 1] := by decide
theorem test_decode_familyF_unknown : [0xF000, 0xF0FF, 0xF01F, 0xF075].all
    (fun w => decode defaultConfig w == .unknown w) = true := by decide
/-- The table's bit numbering (bit 0 is the word's least significant bit), and no instruction of another length. -/
theorem test_decodeTableWord : decodeTableWord 16 0x6A3C = some (.ldImm 0xA 0x3C) := by decide
/-- Memory order is big-endian (vector T1). -/
theorem test_decodeBytes : decodeBytes defaultConfig [0x12, 0x34, 0xFF] = .ok (.jp 0x234, [0xFF]) := by decide
theorem test_decodeBytes_truncated : decodeBytes defaultConfig [0x12] = .error .truncated := by decide

/-! ### One tick of each instruction: vectors of 95_test_vectors.md -/

/-- CF1. -/
theorem test_cls :
    (run 0x00E0 { State.reset with fb := (State.reset.fb.put 0 0 true).put 63 31 true }).fb = State.reset.fb ∧
    (run 0x00E0 State.reset).pc = 0x202 := by decide

/-- CF3, CF4. -/
theorem test_ret :
    (run 0x0FFE { State.reset with sp := 2, stack := (State.reset.stack.set 0 0x250).set 1 0x30A }).pc = 0x30A ∧
    (run 0x0FFE { State.reset with sp := 2, stack := (State.reset.stack.set 0 0x250).set 1 0x30A }).sp = 1 ∧
    (run 0x00EE State.reset).fault = ⟨.stackUnderflow, 0x200, 0⟩ := by decide

/-- CF5, CF7. -/
theorem test_jp :
    (run 0x1ABC State.reset).pc = 0xABC ∧ (run 0x1301 State.reset).pc = 0x301 := by decide

/-- CF9, CF10. -/
theorem test_call :
    (run 0x2204 State.reset).stack[0] = 0x202 ∧ (run 0x2204 State.reset).pc = 0x204 ∧
    (run 0x2400 { State.reset with sp := 15 }).stack[15] = 0x202 ∧ (run 0x2400 { State.reset with sp := 15 }).sp = 16 := by decide

/-- CF11. -/
theorem test_call_overflow :
    (run 0x2400 { State.reset with sp := 16 }).fault = ⟨.stackOverflow, 0x200, 0⟩ ∧
    (run 0x2400 { State.reset with sp := 16 }).pc = 0x200 ∧
    (run 0x2400 { State.reset with sp := 16 }).stack = State.reset.stack := by decide

/-- CF13, CF14, and CF13's next tick. -/
theorem test_jpV0 :
    (run 0xBFFF (regs [(0, 0xFF)] State.reset)).pc = 0x10FE ∧ (run 0xB500 (regs [(0, 2), (5, 0x99)] State.reset)).pc = 0x502 ∧
    (run 0xBFFF (regs [(0, 0xFF)] State.reset)).tick.fault = ⟨.fetchOutOfRange, 0x10FE, 0x10FE⟩ := by decide

/-- CF15, CF16, CF24. -/
theorem test_seImm :
    (run 0x3342 (regs [(3, 0x42)] State.reset)).pc = 0x204 ∧ (run 0x3342 (regs [(3, 0x41)] State.reset)).pc = 0x202 ∧
    (run 0x3F01 (regs [(0xF, 1)] State.reset)).pc = 0x204 := by decide

/-- CF17, CF18. -/
theorem test_sneImm :
    (run 0x4342 (regs [(3, 0x42)] State.reset)).pc = 0x202 ∧ (run 0x4342 State.reset).pc = 0x204 := by decide

/-- CF19, CF20. -/
theorem test_seReg :
    (run 0x5120 (regs [(1, 7), (2, 7)] State.reset)).pc = 0x204 ∧ (run 0x5127 (regs [(1, 7), (2, 8)] State.reset)).pc = 0x202 := by decide

/-- CF21, CF22. -/
theorem test_sneReg :
    (run 0x9120 (regs [(1, 7), (2, 8)] State.reset)).pc = 0x204 ∧ (run 0x912F (regs [(1, 7), (2, 7)] State.reset)).pc = 0x202 := by decide

/-- A1. -/
theorem test_ldImm :
    (run 0x6FAB State.reset).getV 0xF = 0xAB ∧ (run 0x6FAB State.reset).pc = 0x202 := by decide

/-- A2, A3. -/
theorem test_addImm :
    (run 0x7203 (regs [(2, 0xFE), (0xF, 0x77)] State.reset)).getV 2 = 0x01 ∧
    (run 0x7203 (regs [(2, 0xFE), (0xF, 0x77)] State.reset)).getV 0xF = 0x77 ∧ (run 0x7201 (regs [(2, 0xFF)] State.reset)).getV 0xF = 0x00 := by decide

/-- A4. -/
theorem test_ldReg :
    (run 0x8010 (regs [(1, 0x33), (0xF, 0x77)] State.reset)).getV 0 = 0x33 ∧
    (run 0x8010 (regs [(1, 0x33), (0xF, 0x77)] State.reset)).getV 0xF = 0x77 := by decide

/-- A4a. -/
theorem test_orReg :
    (run 0x8011 (regs [(0, 0x0F), (1, 0xF0), (0xF, 0x77)] State.reset)).getV 0 = 0xFF ∧
    (run 0x8011 (regs [(0, 0x0F), (1, 0xF0), (0xF, 0x77)] State.reset)).getV 0xF = 0x77 := by decide

/-- A4b. -/
theorem test_andReg :
    (run 0x8012 (regs [(0, 0x3C), (1, 0x0F)] State.reset)).getV 0 = 0x0C := by decide

/-- A4a, A4c. -/
theorem test_xorReg :
    (run 0x8013 (regs [(0, 0x0F), (1, 0xF0)] State.reset)).getV 0 = 0xFF ∧ (run 0x8003 (regs [(0, 0x5A)] State.reset)).getV 0 = 0x00 := by decide

/-- A6, A8, A9a under reread. -/
theorem test_addReg :
    (run 0x8014 (regs [(0, 0xFF), (1, 1)] State.reset)).getV 0 = 0x00 ∧ (run 0x8014 (regs [(0, 0xFF), (1, 1)] State.reset)).getV 0xF = 1 ∧
    (run 0x8014 (regs [(0, 0xFF)] State.reset)).getV 0xF = 0 ∧
    (run 0x80F4 (regs [(0, 0x10), (0xF, 0xF0)] (withCfg { defaultConfig with vfDest := .reread }))).getV 0 = 0x11 := by decide

/-- A9. -/
theorem test_addReg_flag_dest :
    (run 0x8F14 (regs [(0xF, 0xFF), (1, 1)] (withCfg { defaultConfig with vfDest := .result }))).getV 0xF = 0x00 ∧
    (run 0x8F14 (regs [(0xF, 0xFF), (1, 1)] (withCfg { defaultConfig with vfDest := .flag }))).getV 0xF = 0x01 ∧
    (run 0x8F14 (regs [(0xF, 0xFF), (1, 1)] (withCfg { defaultConfig with vfDest := .reread }))).getV 0xF = 0x02 := by decide

/-- A10, A12. -/
theorem test_subReg :
    (run 0x8015 (regs [(0, 5), (1, 0x0A)] State.reset)).getV 0 = 0xFB ∧ (run 0x8015 (regs [(0, 5), (1, 0x0A)] State.reset)).getV 0xF = 0 ∧
    (run 0x8015 (regs [(0, 7), (1, 7)] State.reset)).getV 0xF = 1 := by decide

/-- A14. -/
theorem test_subReg_flag_dest :
    (run 0x8F15 (regs [(0xF, 0x10), (1, 1)] (withCfg { defaultConfig with vfDest := .result }))).getV 0xF = 0x0F ∧
    (run 0x8F15 (regs [(0xF, 0x10), (1, 1)] (withCfg { defaultConfig with vfDest := .flag }))).getV 0xF = 0x01 ∧
    (run 0x8F15 (regs [(0xF, 0x10), (1, 1)] (withCfg { defaultConfig with vfDest := .reread }))).getV 0xF = 0x00 := by decide

/-- A19, A23. -/
theorem test_shr :
    (run 0x8406 (regs [(4, 5)] State.reset)).getV 4 = 0x02 ∧ (run 0x8406 (regs [(4, 5)] State.reset)).getV 0xF = 1 ∧
    (run 0x8456 (regs [(4, 4), (5, 0xFF)] State.reset)).getV 4 = 0x02 ∧ (run 0x8456 (regs [(4, 4), (5, 0xFF)] State.reset)).getV 0xF = 0 := by decide

/-- A24. -/
theorem test_shr_flag_dest :
    (run 0x8F06 (regs [(0xF, 3)] (withCfg { defaultConfig with vfDest := .result }))).getV 0xF = 0x01 ∧
    (run 0x8F06 (regs [(0xF, 3)] (withCfg { defaultConfig with vfDest := .flag }))).getV 0xF = 0x01 ∧
    (run 0x8F06 (regs [(0xF, 3)] (withCfg { defaultConfig with vfDest := .reread }))).getV 0xF = 0x00 := by decide

/-- A15, A16. -/
theorem test_subnReg :
    (run 0x8017 (regs [(0, 5), (1, 0x0A)] State.reset)).getV 0 = 0x05 ∧ (run 0x8017 (regs [(0, 5), (1, 0x0A)] State.reset)).getV 0xF = 1 ∧
    (run 0x8017 (regs [(0, 0x0A), (1, 5)] State.reset)).getV 0 = 0xFB ∧ (run 0x8017 (regs [(0, 0x0A), (1, 5)] State.reset)).getV 0xF = 0 := by decide

/-- A17. -/
theorem test_subnReg_equal :
    (run 0x8017 (regs [(0, 7), (1, 7)] State.reset)).getV 0xF = 0 ∧
    (run 0x8017 (regs [(0, 7), (1, 7)] (withCfg { defaultConfig with subnEqVf := true }))).getV 0xF = 1 := by decide

/-- A25, A27. -/
theorem test_shl :
    (run 0x840E (regs [(4, 0x81)] State.reset)).getV 4 = 0x02 ∧ (run 0x840E (regs [(4, 0x81)] State.reset)).getV 0xF = 1 ∧
    (run 0x840E (regs [(4, 0x7F)] State.reset)).getV 4 = 0xFE ∧ (run 0x840E (regs [(4, 0x7F)] State.reset)).getV 0xF = 0 := by decide

/-- A29. -/
theorem test_shl_flag_dest :
    (run 0x8F0E (regs [(0xF, 0x40)] (withCfg { defaultConfig with vfDest := .result }))).getV 0xF = 0x80 ∧
    (run 0x8F0E (regs [(0xF, 0x40)] (withCfg { defaultConfig with vfDest := .flag }))).getV 0xF = 0x00 ∧
    (run 0x8F0E (regs [(0xF, 0x40)] (withCfg { defaultConfig with vfDest := .reread }))).getV 0xF = 0x00 := by decide

/-- A30, A32, and T12 under noop. -/
theorem test_rnd :
    (run 0xC30F { State.reset with rndIn := some 0xA5 }).getV 3 = 0x05 ∧
    (run 0xCFF0 { State.reset with rndIn := some 0xA5 }).getV 0xF = 0xA0 ∧
    (run 0xC3FF (regs [(3, 0x44)] (withCfg { defaultConfig with cxnnMode := .noop }))).getV 3 = 0x44 := by decide

/-- M1, M2. -/
theorem test_ldI :
    (run 0xA2F0 State.reset).i = 0x02F0 ∧ (run 0xAFFF State.reset).i = 0x0FFF := by decide

/-- M4, M5. -/
theorem test_addI :
    (run 0xF01E (withI 0x0FFF (regs [(0, 1)] State.reset))).i = 0x1000 ∧ (run 0xF01E (withI 0xFFFF (regs [(0, 1)] State.reset))).i = 0x0000 := by decide

/-- M6, M7. -/
theorem test_ldF :
    (run 0xF529 (regs [(5, 0x0B)] State.reset)).i = 0x0037 ∧ (run 0xF529 (regs [(5, 0x1A)] State.reset)).i = 0x0032 := by decide

/-- M9, M12. -/
theorem test_ldB :
    (List.range 3).map (fun k => (run 0xF033 (withI 0x300 (regs [(0, 0x9C)] State.reset))).byteAt (0x300 + k)) = [1, 5, 6] ∧
    (List.range 3).map (fun k => (run 0xF033 (withI 0xFFD (regs [(0, 7)] State.reset))).byteAt (0xFFD + k)) = [0, 0, 7] := by decide

/-- M13. -/
theorem test_ldB_fault :
    (run 0xF033 (withI 0xFFE (regs [(0, 7)] State.reset))).fault = ⟨.memOutOfRange, 0x200, 0x1000⟩ ∧
    (run 0xF033 (withI 0xFFE (regs [(0, 0xFF)] State.reset))).byteAt 0xFFE = 0 := by decide

/-- M14. -/
theorem test_storeRegs :
    (List.range 4).map (fun k => (run 0xF255 (withI 0x400 (regs [(0, 1), (1, 2), (2, 3), (3, 4)] State.reset))).byteAt (0x400 + k)) = [1, 2, 3, 0] ∧
    (run 0xF255 (withI 0x400 (regs [(0, 1)] State.reset))).i = 0x400 := by decide

/-- M17, M18. -/
theorem test_storeRegs_fault :
    (run 0xFF55 (withI 0xFF1 State.reset)).fault = ⟨.memOutOfRange, 0x200, 0x1000⟩ ∧
    (run 0xF055 (withI 0x1005 State.reset)).fault = ⟨.memOutOfRange, 0x200, 0x1005⟩ := by decide

/-- M19, M22 (with the glyph of R166). -/
theorem test_loadRegs :
    (run 0xF165 (withI 0x400 (bytes 0x400 [0xAB, 0xCD] State.reset))).getV 0 = 0xAB ∧
    (run 0xF165 (withI 0x400 (bytes 0x400 [0xAB, 0xCD] State.reset))).getV 1 = 0xCD ∧
    (List.range 5).map (fun k => (run 0xF465 (withI 5 State.reset)).getV (Fin.ofNat 16 k)) = [0x20, 0x60, 0x20, 0x20, 0x70] := by decide

/-- M21. -/
theorem test_loadRegs_fault :
    (run 0xF065 (withI 0xFFFF (regs [(0, 0x33)] State.reset))).fault = ⟨.memOutOfRange, 0x200, 0xFFFF⟩ ∧
    (run 0xF065 (withI 0xFFFF (regs [(0, 0x33)] State.reset))).getV 0 = 0x33 := by decide

/-- D9, D8. -/
theorem test_drw_row :
    (run 0xD011 (withI 0x300 (bytes 0x300 [0xC0] { State.reset with fb := State.reset.fb.put 1 0 true }))).fb.get 0 0 = true ∧
    (run 0xD011 (withI 0x300 (bytes 0x300 [0xC0] { State.reset with fb := State.reset.fb.put 1 0 true }))).fb.get 1 0 = false ∧
    (run 0xD011 (withI 0x300 (bytes 0x300 [0xC0] { State.reset with fb := State.reset.fb.put 1 0 true }))).getV 0xF = 1 ∧
    (run 0xDF11 (withI 0x300 (bytes 0x300 [0x80] (regs [(0xF, 8)] State.reset)))).fb.get 8 0 = true := by decide

/-- D5. -/
theorem test_drw_edge :
    (run 0xD011 (withI 0x300 (bytes 0x300 [0xFF] (regs [(0, 60), (1, 31)] { State.reset with fb := State.reset.fb.put 0 31 true })))).fb.get 0 31 = true ∧
    (run 0xD011 (withI 0x300 (bytes 0x300 [0xFF] (regs [(0, 60), (1, 31)]
      { withCfg { defaultConfig with drawEdge := .wrap } with fb := State.reset.fb.put 0 31 true })))).fb.get 0 31 = false ∧
    (run 0xD013 (withI 0xFFE (regs [(1, 31)] State.reset))).fault = ⟨.memOutOfRange, 0x200, 0x1000⟩ := by decide

/-- K1, K2, K4. -/
theorem test_skp :
    (run 0xE19E (regs [(1, 0xA)] { State.reset with keys := 0x0400 })).pc = 0x204 ∧ (run 0xE19E (regs [(1, 0xA)] State.reset)).pc = 0x202 ∧
    (run 0xE19E (regs [(1, 0x10)] State.reset)).fault = ⟨.keyOutOfRange, 0x200, 0x0010⟩ := by decide

/-- K5, K6, K7. -/
theorem test_sknp :
    (run 0xE1A1 (regs [(1, 0xA)] State.reset)).pc = 0x204 ∧ (run 0xE1A1 (regs [(1, 0xA)] { State.reset with keys := 0x0400 })).pc = 0x202 ∧
    (run 0xE1A1 (regs [(1, 0xFF)] State.reset)).fault = ⟨.keyOutOfRange, 0x200, 0x00FF⟩ := by decide

/-- K9, K10. -/
theorem test_ldVxK :
    (run 0xF30A { State.reset with pc := 0x208, dt := 5 }).pc = 0x208 ∧ (run 0xF30A { State.reset with pc := 0x208, dt := 5 }).dt = 4 ∧
    (run 0xF30A { State.reset with pc := 0x208, keys := 0x0020 }).getV 3 = 5 := by decide

/-- K11. -/
theorem test_ldVxK_order :
    (run 0xF30A { State.reset with keys := 0x0120 }).getV 3 = 5 ∧
    (run 0xF30A { withCfg { defaultConfig with keyScanOrder := .highest } with keys := 0x0120 }).getV 3 = 8 := by decide

/-- TM1. -/
theorem test_ldVxDt :
    (run 0xF207 { State.reset with dt := 0x10 }).getV 2 = 0x10 ∧ (run 0xF207 { State.reset with dt := 0x10 }).dt = 0x0F := by decide

/-- TM3, TM4. -/
theorem test_ldDtVx :
    (run 0xF215 (regs [(2, 5)] State.reset)).dt = 4 ∧ (run 0xF215 { State.reset with dt := 9 }).dt = 0 := by decide

/-- TM5, TM6. -/
theorem test_ldStVx :
    (run 0xF218 (regs [(2, 1)] State.reset)).st = 0 ∧ (run 0xF218 (regs [(2, 0xFF)] State.reset)).st = 0xFE := by decide

/-- T5. -/
theorem test_unknown :
    (run 0xF0FF { State.reset with dt := 1, st := 2 }).pc = 0x202 ∧ (run 0xF0FF { State.reset with dt := 1, st := 2 }).dt = 0 ∧
    (run 0xF0FF { State.reset with dt := 1, st := 2 }).st = 1 := by decide

/-! ### The tick, reset and the host operations -/

/-- T2, T3, T7. -/
theorem test_tick_edges :
    (run 0x00E0 { State.reset with pc := 0xFFE }).pc = 0x1000 ∧
    ({ State.reset with pc := 0xFFF } : State).tick.fault = ⟨.fetchOutOfRange, 0xFFF, 0xFFF⟩ ∧
    ({ State.reset with dt := 5, fault := ⟨.stackUnderflow, 0, 0⟩ } : State).tick =
      { State.reset with dt := 5, fault := ⟨.stackUnderflow, 0, 0⟩ } := by decide

/-- R241's numbers, and a fault as the host reads it (CF4). -/
theorem test_fault_codes :
    [FaultCode.none, .stackOverflow, .stackUnderflow, .memOutOfRange, .keyOutOfRange, .fetchOutOfRange].map
      FaultCode.toByte = [0, 1, 2, 3, 4, 5] ∧ hostReadFault (run 0x00EE State.reset) = (2, 0x200, 0) := by decide

/-- TM8. -/
theorem test_fault_keeps_timers :
    (run 0x00EE { State.reset with dt := 5, st := 5 }).dt = 5 ∧ (run 0x00EE { State.reset with dt := 5, st := 5 }).st = 5 := by decide

/-- W1's ROM, and RL4. -/
theorem test_load :
    (hostLoad [0x60, 0x0A, 0x61, 0x05] State.reset).1 = .ok ∧
    (hostLoad [0x60, 0x0A, 0x61, 0x05] State.reset).2.nextInstr = some (.ldImm 0 0x0A) ∧
    (hostLoad [] State.reset).2.nextInstr = some .cls ∧ (hostLoad [] State.reset.tick).1 = .notAdmitted := by decide

/-- A30, by the host's draw. -/
theorem test_hostTick :
    (match hostTick 0xA5 (State.reset.withFetchWord 16 0xC30F) with | .next t => t.getV 3 | _ => 0) = 0x05 := by decide

/-! ### Witnesses: the hypotheses of each obligation are met together, clause by clause, at boundary values -/

theorem witness_DecodeEncodeRoundTrip : (Instr.rnd 0xF 0xFF).wellFormed defaultConfig = true ∧
    (Instr.unknown 0x00E1).wellFormed defaultConfig = true ∧ (Instr.drw 0xF 0xF 0xF).wellFormed defaultConfig = true := by
  decide

/-- Both kinds of word, under both settings of CXNN_MODE. -/
theorem witness_EveryWordIsInstructionOrUnknown : isUnknownWord defaultConfig 0x00E1 = true ∧
    isUnknownWord { defaultConfig with cxnnMode := .noop } 0xCFFF = true ∧
    isUnknownWord defaultConfig 0xCFFF = false ∧ isUnknownWord defaultConfig 0x0000 = false := by decide

theorem witness_FamilyZeroDispatchesOnLowNibble :
    [0x0120, 0x0FFE, 0x0FFF].all (fun w : Word => w &&& 0xF000 == 0x0000) = true ∧ opN 0x0120 = 0x0 ∧ opN 0x0FFE = 0xE ∧
    opN 0x0FFF ≠ 0x0 ∧ opN 0x0FFF ≠ 0xE := by decide

/-- One word per clause, with every ignored bit set. -/
theorem witness_OpcodeMapRowsDecode :
    [(0x3FFF, 0x3000), (0x4FFF, 0x4000), (0x5FFF, 0x5000), (0x7FFF, 0x7000), (0x9FFF, 0x9000), (0xCFFF, 0xC000),
      (0xDFFF, 0xD000)].all (fun p : Word × Word => p.1 &&& 0xF000 == p.2) = true ∧
    [(0x8FF0, 0x8000), (0x8FF1, 0x8001), (0x8FF2, 0x8002), (0x8FF3, 0x8003), (0x8FF4, 0x8004), (0x8FF5, 0x8005),
      (0x8FF6, 0x8006), (0x8FF7, 0x8007), (0x8FFE, 0x800E), (0xEFFE, 0xE00E), (0xEFF1, 0xE001)].all
      (fun p : Word × Word => p.1 &&& 0xF00F == p.2) = true ∧
    [(0xFF07, 0xF007), (0xFF0A, 0xF00A), (0xFF15, 0xF015), (0xFF18, 0xF018), (0xFF1E, 0xF01E), (0xFF29, 0xF029),
      (0xFF55, 0xF055), (0xFF65, 0xF065)].all (fun p : Word × Word => p.1 &&& 0xF0FF == p.2) = true := by decide

/-- The last pc that can be fetched from, vector T2. -/
theorem witness_StepRunsDecodedInstruction :
    let s : State := { State.reset with pc := 0xFFE }
    s.fault.code = .none ∧ s.pc.toNat ≤ 0x0FFE ∧
    decode s.cfg (BitVec.ofNat 16 (256 * (s.byteAt s.pc.toNat).toNat + (s.byteAt (s.pc.toNat + 1)).toNat)) = .cls ∧
    ∃ t, exec .cls s = .next t := ⟨rfl, by decide, by decide, _, rfl⟩

theorem witness_FetchOutOfRangeFaults :
    let s : State := { State.reset with pc := 0xFFF }
    s.fault.code = .none ∧ 0x0FFE < s.pc.toNat := by decide

theorem witness_HaltedCoreNeverChanges : (run 0x00EE State.reset).fault.code ≠ .none := by decide

/-- A timer that counts: the state of the first two clauses, one completed tick and one faulted one. -/
theorem witness_TimersCountDownEachCompletedTick :
    (let s := State.reset.withFetchWord 16 0x6000
     s.fault.code = .none ∧ step s = .next s.tick ∧ s.tick.fault.code = .none) ∧
    (let s := State.reset.withFetchWord 16 0x00EE
     step s = .next s.tick ∧ s.tick.fault.code ≠ .none) := ⟨⟨rfl, rfl, by decide⟩, rfl, by decide⟩

/-- `LD DT, V0` with V0 = 3 and then cleared memory: the clause's premises for the last j, 2. -/
theorem witness_TimersCountDownEachCompletedTick_dt :
    let s := (regs [(0, 3)] State.reset).withFetchWord 16 0xF015
    s.nextInstr = some (.ldDtVx 0) ∧ 1 ≤ (s.getV 0).toNat ∧ 2 ≤ (s.getV 0).toNat - 1 ∧
    (State.ticks 3 s).fault.code = .none ∧ (State.ticks 1 s).nextInstr = some .cls ∧
    (State.ticks 2 s).nextInstr = some .cls := by decide

theorem witness_TimersCountDownEachCompletedTick_st :
    let s := (regs [(0, 3)] State.reset).withFetchWord 16 0xF018
    s.nextInstr = some (.ldStVx 0) ∧ 1 ≤ (s.getV 0).toNat ∧ 2 ≤ (s.getV 0).toNat - 1 ∧
    (State.ticks 3 s).fault.code = .none ∧ (State.ticks 1 s).nextInstr = some .cls ∧
    (State.ticks 2 s).nextInstr = some .cls := by decide

/-- One fault of each cause an instruction has. -/
theorem witness_FaultsArePreciseAndCaused :
    (∃ t, exec (.call 0x400) { State.reset with sp := 16 } = .next t ∧ t.fault.code = .stackOverflow) ∧
    (∃ t, exec .ret State.reset = .next t ∧ t.fault.code = .stackUnderflow) ∧
    (∃ t, exec (.ldB 0) (withI 0xFFE State.reset) = .next t ∧ t.fault.code = .memOutOfRange) ∧
    (∃ t, exec (.skp 1) (regs [(1, 0x10)] State.reset) = .next t ∧ t.fault.code = .keyOutOfRange) :=
  ⟨⟨_, rfl, by decide⟩, ⟨_, rfl, by decide⟩, ⟨_, rfl, by decide⟩, ⟨_, rfl, by decide⟩⟩

theorem witness_FaultTickKeepsAllElse :
    let s := State.reset.withFetchWord 16 0x00EE
    s.fault.code = .none ∧ step s = .next s.tick ∧ s.tick.fault.code ≠ .none := ⟨rfl, rfl, by decide⟩

/-- The second clause: a state with each code. -/
theorem witness_FaultTickKeepsAllElse_codes :
    State.reset.fault.code = .none ∧ (run 0x2400 { State.reset with sp := 16 }).fault.code = .stackOverflow ∧
    (run 0x00EE State.reset).fault.code = .stackUnderflow ∧
    (run 0xF055 (withI 0x1005 State.reset)).fault.code = .memOutOfRange ∧
    (run 0xE19E (regs [(1, 0x10)] State.reset)).fault.code = .keyOutOfRange ∧
    ({ State.reset with pc := 0xFFF } : State).tick.fault.code = .fetchOutOfRange := by decide

theorem witness_KeyIndexAboveFifteenFaults :
    0x0F < ((regs [(1, 0x10)] State.reset).getV 1).toNat ∧ 0x0F < ((regs [(1, 0xFF)] State.reset).getV 1).toNat := by decide

theorem witness_ClsClearsEveryPixel : (0x0FF0 : Word) &&& 0xF00F = 0x0000 := by decide

/-- The lowest and the highest slot, the empty stack, and a return to an address that cannot be fetched. -/
theorem witness_RetPopsReturnAddress : (0x0FFE : Word) &&& 0xF00F = 0x000E ∧
    ({ State.reset with sp := 1 } : State).sp.val = (0 : Fin 16).val + 1 ∧
    ({ State.reset with sp := 16 } : State).sp.val = (15 : Fin 16).val + 1 ∧ State.reset.sp = 0 ∧
    (let s := { State.reset with sp := 1, stack := State.reset.stack.set 0 0x0FFF }.withFetchWord 16 0x00EE
     s.fault.code = .none ∧ s.nextInstr = some .ret ∧ s.sp.val = (0 : Fin 16).val + 1 ∧
       0x0FFE < (s.stack[(0 : Fin 16)]).toNat) := by decide

theorem witness_JpSetsPc : (0x1FFF : Word) &&& 0xF000 = 0x1000 ∧
    (let s := State.reset.withFetchWord 16 0x1FFF
     s.fault.code = .none ∧ s.nextInstr = some (.jp 0xFFF)) ∧
    (let s := State.reset.withFetchWord 16 0x1200
     s.fault.code = .none ∧ s.nextInstr = some (.jp 0x200) ∧ (0x200 : BitVec 12).toNat = s.pc.toNat) := by decide

theorem witness_CallPushesReturnAddress : (0x2FFF : Word) &&& 0xF000 = 0x2000 ∧
    State.reset.sp.val = (0 : Fin 16).val ∧ ({ State.reset with sp := 15 } : State).sp.val = (15 : Fin 16).val ∧
    ({ State.reset with sp := 16 } : State).sp = 16 := by decide

/-- The lowest target above 0xFFE and the highest. -/
theorem witness_JpVZeroAddsVZero : (0xBFFF : Word) &&& 0xF000 = 0xB000 ∧
    (let s := State.reset.withFetchWord 16 0xBFFF
     s.fault.code = .none ∧ s.nextInstr = some (.jpV0 0xFFF) ∧ 0x0FFE < (0xFFF : BitVec 12).toNat + (s.getV 0).toNat) ∧
    (let s := (regs [(0, 0xFF)] State.reset).withFetchWord 16 0xBFFF
     s.fault.code = .none ∧ s.nextInstr = some (.jpV0 0xFFF) ∧
       0x0FFE < (0xFFF : BitVec 12).toNat + (s.getV 0).toNat) := by decide

theorem witness_SkipsAdvanceByTwoMore : (State.reset.getV 0).toNat = (0 : Fin 16).val ∧
    ((regs [(0, 0x0F)] State.reset).getV 0).toNat = (0xF : Fin 16).val := by decide

theorem witness_UnknownOpcodeOnlyAdvances :
    let s := State.reset.withFetchWord 16 0xF0FF
    s.fault.code = .none ∧ s.nextInstr = some (.unknown 0xF0FF) := by decide

theorem witness_LdImmLoadsByte : (0x6FFF : Word) &&& 0xF000 = 0x6000 := by decide

theorem witness_RegisterOpsWriteVxAlone : (1 : RegIx) ≠ 0 := by decide

/-- X other than F, X = F, and Y = F under each VF_DEST. -/
theorem witness_AddSubWriteFlagAndResult : (0 : RegIx) ≠ vf ∧ (1 : RegIx) ≠ 0 ∧ (1 : RegIx) ≠ vf ∧ (0xF : RegIx) = vf ∧
    (withCfg { defaultConfig with vfDest := .reread }).cfg.vfDest = .reread := by decide

theorem witness_ShiftsWriteBitShiftedOut : (0 : RegIx) ≠ vf ∧ (1 : RegIx) ≠ 0 ∧ (1 : RegIx) ≠ vf ∧ (0xF : RegIx) = vf := by
  decide

theorem witness_RndMasksTheDraw : State.reset.cfg.cxnnMode = .random ∧ State.reset.rndIn = none ∧
    ({ State.reset with rndIn := some 0xA5 } : State).rndIn = some 0xA5 ∧
    (withCfg { defaultConfig with cxnnMode := .noop }).cfg.cxnnMode = .noop := by decide

theorem witness_MemoryAccessIsChecked : State.reset.memWf ∧ 0xFFF ≤ 0xFFF ∧ 0xFFF < 0x1000 ∧
    State.pop State.reset.advance = .error ⟨.stackUnderflow, 0⟩ ∧
    0x0FFE < ({ State.reset with pc := 0xFFF } : State).pc.toNat := by decide

theorem witness_LdISetsIndex : (0xAFFF : Word) &&& 0xF000 = 0xA000 := by decide

/-- The highest I that does not fault, and the three that report I + 2, I + 1 and I. -/
theorem witness_LdBStoresDigits : (0xFF33 : Word) &&& 0xF0FF = 0xF033 ∧ (withI 0xFFD State.reset).memWf ∧
    (withI 0xFFD State.reset).indexAddr + 2 ≤ 0xFFF ∧
    (let s := withI 0xFFE State.reset
     0xFFF < s.indexAddr + 2 ∧ ∀ j, j < 2 → s.indexAddr + j ≤ 0xFFF) ∧
    (let s := withI 0xFFF State.reset
     0xFFF < s.indexAddr + 1 ∧ ∀ j, j < 1 → s.indexAddr + j ≤ 0xFFF) ∧
    (let s := withI 0x1000 State.reset
     0xFFF < s.indexAddr + 0 ∧ ∀ j, j < 0 → s.indexAddr + j ≤ 0xFFF) := by
  refine ⟨by decide, by decide, by decide, ⟨by decide, ?_⟩, ⟨by decide, ?_⟩, by decide, ?_⟩ <;>
    (intro j hj; have h : (withI 0xFFE State.reset).indexAddr = 0xFFE ∧ (withI 0xFFF State.reset).indexAddr = 0xFFF := by decide
     omega)

/-- The highest I that stores 16 registers, the lowest that faults, and I itself out of range. -/
theorem witness_StoreRegsDumpsBlock : (withI 0xFF0 State.reset).memWf ∧
    (withI 0xFF0 State.reset).indexAddr + (0xF : RegIx).val ≤ 0xFFF ∧
    0xFFF < (withI 0xFF1 State.reset).indexAddr + (0xF : RegIx).val ∧
    0xFFF < (withI 0x1005 State.reset).indexAddr + (0 : RegIx).val := by decide

theorem witness_LoadRegsLoadsBlock : (withI 0xFFF State.reset).indexAddr + (0 : RegIx).val ≤ 0xFFF ∧
    (0 : RegIx) ≤ 0 ∧ (0 : RegIx) < 1 ∧ 0xFFF < (withI 0xFF1 State.reset).indexAddr + (0xF : RegIx).val := by decide

/-- Vector M23, and the last pc at which the next opcode is in memory. -/
theorem witness_StoredBytesAreFetchedNext :
    (let s := withI 0x202 (regs [(0, 0x12)] State.reset)
     s.memWf ∧ (∃ t, exec (.storeRegs 1) s = .next t) ∧ s.indexAddr + (1 : RegIx).val ≤ 0xFFF ∧ s.pc.toNat ≤ 0xFFC ∧
       (1 : RegIx) ≤ 1 ∧ (0 : RegIx).val + 1 = (1 : RegIx).val ∧ s.pc.toNat + 2 = s.indexAddr + (0 : RegIx).val) ∧
    (let s : State := { withI 0xFFE State.reset with pc := 0xFFC }
     s.memWf ∧ (∃ t, exec (.storeRegs 1) s = .next t) ∧ s.indexAddr + (1 : RegIx).val ≤ 0xFFF ∧ s.pc.toNat ≤ 0xFFC ∧
       s.pc.toNat + 2 = s.indexAddr + (0 : RegIx).val) :=
  ⟨⟨by decide, ⟨_, rfl⟩, by decide, by decide, by decide, by decide, by decide⟩,
    by decide, ⟨_, rfl⟩, by decide, by decide, by decide⟩

/-- Vectors D6 (N = 0) and a sprite that ends at 0xFFF; a covered pixel, lit and unlit, and one that is not covered. -/
theorem witness_DrwTogglesCoveredPixels :
    (let s := withI 0xFFF (bytes 0xFFF [0x80] State.reset)
     s.indexAddr + (1 : BitVec 4).toNat ≤ 0x1000 ∧ s.covers 0 1 1 0 0 ∧ ¬ s.covers 0 1 1 1 0 ∧ s.fb.get 0 0 = false) ∧
    (∃ px py, (withI 0xFFF (bytes 0xFFF [0x80] { State.reset with fb := State.reset.fb.put 0 0 true })).covers 0 1 1 px py ∧
      (State.reset.fb.put 0 0 true).get px py = true) := by
  refine ⟨⟨by decide, ⟨0, 0, by decide, by decide, by decide, by decide, by decide⟩, ?_, by decide⟩, 0, 0,
    ⟨0, 0, by decide, by decide, by decide, by decide, by decide⟩, by decide⟩
  rintro ⟨r, c, hr, hc, hb, hl⟩
  have hr0 : r = 0 := by have : (1 : BitVec 4).toNat = 1 := rfl; omega
  subst hr0
  have hl1 : ((withI 0xFFF (bytes 0xFFF [0x80] State.reset)).getV 0).toNat % 64 + c = 1 := hl.1
  have h0 : ((withI 0xFFF (bytes 0xFFF [0x80] State.reset)).getV 0).toNat % 64 = 0 := by decide
  have hc1 : c = 1 := by omega
  subst hc1
  exact absurd hb (by decide)

theorem witness_DrwOutOfRangeFaults : (3 : BitVec 4) ≠ 0 ∧
    0x1000 < (withI 0xFFE State.reset).indexAddr + (3 : BitVec 4).toNat ∧
    0x1000 < (withI 0xFFFF State.reset).indexAddr + (1 : BitVec 4).toNat := by decide

/-- Vector D3: VX = 0x40 and VY = 0x25 have the origin (0, 5). -/
theorem witness_DrwOriginWrapsOnEntry :
    let s := regs [(0, 0x40), (1, 0x25)] State.reset
    let s' := regs [(0, 0x00), (1, 0x05)] State.reset
    (0 : Fin 64).val = (s.getV 0).toNat % 64 ∧ (5 : Fin 32).val = (s.getV 1).toNat % 32 ∧ (5 : BitVec 4) ≠ 0 ∧
    s.indexAddr + (5 : BitVec 4).toNat ≤ 0x1000 ∧ s' = { s with v := s'.v } ∧
    (s'.getV 0).toNat % 64 = (s.getV 0).toNat % 64 ∧ (s'.getV 1).toNat % 32 = (s.getV 1).toNat % 32 :=
  ⟨by decide, by decide, by decide, by decide, rfl, by decide, by decide⟩

theorem witness_DoubleDrawRestoresFramebuffer : (0 : RegIx) ≠ vf ∧ (1 : RegIx) ≠ vf ∧
    State.reset.indexAddr + (5 : BitVec 4).toNat ≤ 0x1000 := by decide

/-- The lowest and the highest key, both orders, and no key. -/
theorem witness_LdKWaitsForKey : ({ State.reset with keys := 0x0001 } : State).keys ≠ 0 ∧
    ({ withCfg { defaultConfig with keyScanOrder := .highest } with keys := 0x8000 } : State).keys ≠ 0 ∧
    (withCfg { defaultConfig with keyScanOrder := .highest }).cfg.keyScanOrder = .highest ∧
    State.reset.cfg.keyScanOrder = .lowest ∧ State.reset.keys = 0 := by decide

theorem witness_TimerRegistersMove : State.reset.fault.code = .none ∧
    (State.reset.withFetchWord 16 0xF207).nextInstr = some (.ldVxDt 2) ∧
    (State.reset.withFetchWord 16 0xF215).nextInstr = some (.ldDtVx 2) ∧
    (State.reset.withFetchWord 16 0xF218).nextInstr = some (.ldStVx 2) := by decide

/-- A destination, a flag, a register of a block, and VF of a draw change. -/
theorem witness_RegistersChangeOnlyAsDestinations :
    (∃ t, exec (.ldImm 1 5) State.reset = .next t ∧ t.getV 1 ≠ State.reset.getV 1) ∧
    (∃ t, exec (.shr 0) (regs [(0, 1)] State.reset) = .next t ∧ t.getV vf ≠ (regs [(0, 1)] State.reset).getV vf) ∧
    (∃ t, exec (.loadRegs 1) State.reset = .next t ∧ t.getV 1 ≠ State.reset.getV 1) :=
  ⟨⟨_, rfl, by decide⟩, ⟨_, rfl, by decide⟩, ⟨_, rfl, by decide⟩⟩

theorem witness_ControlRegistersHaveTheirWriters :
    (∃ t, exec (.ldI 5) State.reset = .next t ∧ t.i ≠ State.reset.i) ∧
    (∃ t, exec (.call 0x204) State.reset = .next t ∧ t.sp ≠ State.reset.sp) ∧
    (∃ t, exec (.ldDtVx 0) (regs [(0, 1)] State.reset) = .next t ∧ t.dt ≠ State.reset.dt) ∧
    (∃ t, exec (.ldStVx 0) (regs [(0, 1)] State.reset) = .next t ∧ t.st ≠ State.reset.st) :=
  ⟨⟨_, rfl, by decide⟩, ⟨_, rfl, by decide⟩, ⟨_, rfl, by decide⟩, ⟨_, rfl, by decide⟩⟩

/-- For the read clause: another memory with the same bytes at I..I+1; for the fetch clause, at pc and pc + 1. -/
theorem witness_OnlyListedInstructionsAccessMemory :
    (dataBytes .cls = none ∧ ∃ t, exec .cls State.reset = .next t) ∧
    (let m : Memory := [(0x300, 0xFF)]
     (∀ k, k < (1 : RegIx).val + 1 →
       State.byteAt { State.reset with mem := m } (State.reset.indexAddr + k) = State.reset.byteAt (State.reset.indexAddr + k)) ∧
     (∃ t, exec (.loadRegs 1) State.reset = .next t) ∧ (∃ t, exec (.drw 0 1 2) State.reset = .next t) ∧
     State.byteAt { State.reset with mem := m } State.reset.pc.toNat = State.reset.byteAt State.reset.pc.toNat ∧
     State.byteAt { State.reset with mem := m } (State.reset.pc.toNat + 1) = State.reset.byteAt (State.reset.pc.toNat + 1)) ∧
    (State.reset.memWf ∧ (∃ t, exec (.ldB 0) State.reset = .next t) ∧ ∃ t, exec (.storeRegs 0xF) State.reset = .next t) :=
  ⟨⟨rfl, _, rfl⟩, ⟨by decide, ⟨_, rfl⟩, ⟨_, rfl⟩, by decide, by decide⟩, by decide, ⟨_, rfl⟩, _, rfl⟩

theorem witness_FramebufferAndKeypadAreApart :
    (Instr.jp 0 ≠ .cls ∧ (∀ x y n, Instr.jp 0 ≠ .drw x y n) ∧ ∃ t, exec (.jp 0) State.reset = .next t) ∧
    ((∀ x, Instr.cls ≠ .skp x ∧ Instr.cls ≠ .sknp x ∧ Instr.cls ≠ .ldVxK x) ∧ ∃ t, exec .cls State.reset = .next t) ∧
    ∃ t, memWrite State.reset 0xFFF 1 = .ok t :=
  ⟨⟨nofun, nofun, _, rfl⟩, ⟨fun _ => ⟨nofun, nofun, nofun⟩, _, rfl⟩, _, rfl⟩

theorem witness_StackIsReachedByCallAndRetAlone :
    (Instr.cls ≠ .ret ∧ (∀ nnn, Instr.cls ≠ .call nnn) ∧ ∃ t, exec .cls State.reset = .next t) ∧
    (∃ t, exec (.call 0x204) State.reset = .next t) ∧
    (∃ t, exec .ret { State.reset with sp := 1 } = .next t) ∧ ∃ t, memWrite State.reset 0xFFF 1 = .ok t :=
  ⟨⟨nofun, nofun, _, rfl⟩, ⟨_, rfl⟩, ⟨_, rfl⟩, _, rfl⟩

theorem witness_TimersAreReachedByTheirInstructionsAlone :
    ((∀ x, Instr.cls ≠ .ldVxDt x ∧ Instr.cls ≠ .ldDtVx x) ∧ (∀ x, Instr.cls ≠ .ldStVx x) ∧
      ∃ t, exec .cls State.reset = .next t) ∧
    (let s := { State.reset with dt := 0xFF, st := 1 }.withFetchWord 16 0x6000
     s.fault.code = .none ∧ step s = .next s.tick ∧ s.tick.fault.code = .none) :=
  ⟨⟨fun _ => ⟨nofun, nofun⟩, nofun, _, rfl⟩, rfl, rfl, by decide⟩

/-- A state that meets all three invariants and takes a step that completes, and one that faults. -/
theorem witness_StepKeepsInvariants :
    (State.reset.memWf ∧ State.reset.faultConsistent ∧ step State.reset = .next State.reset.tick) ∧
    (let s := State.reset.withFetchWord 16 0x00EE
     s.memWf ∧ s.faultConsistent ∧ step s = .next s.tick ∧ s.tick.fault.code ≠ .none) :=
  ⟨⟨by decide, ⟨rfl, rfl⟩, rfl⟩, by decide, ⟨rfl, rfl⟩, rfl, by decide⟩

theorem witness_StepKeepsPcBounded : State.reset.pcBounded ∧ step State.reset = .next State.reset.tick :=
  ⟨⟨by decide, by decide⟩, rfl⟩

theorem witness_ResetSetsEveryPiece : (State.reset = State.reset ∨ ∃ s, State.reset = hostReset s) ∧
    (hostReset (run 0x6FAB State.reset) = State.reset ∨ ∃ s, hostReset (run 0x6FAB State.reset) = hostReset s) ∧
    (0 < (1 : Nat) ∧ State.reset.cfg.fontBase.val + 80 ≤ 80) := ⟨.inl rfl, .inr ⟨_, rfl⟩, by decide, by decide⟩

/-- The longest ROM, one byte more, a second load, and a load after a tick. -/
theorem witness_LoadCopiesRomOnce :
    (State.reset.loaded = false ∧ State.reset.ticked = false ∧ (List.replicate 3584 (0 : Byte)).length ≤ 3584 ∧
      State.reset.memWf) ∧
    3584 < (List.replicate 3585 (0 : Byte)).length ∧ (hostLoad [] State.reset).2.loaded = true ∧
    State.reset.tick.ticked = true :=
  ⟨⟨rfl, rfl, by rw [List.length_replicate], by decide⟩, by rw [List.length_replicate]; decide, rfl, by decide⟩

/-- Vector CF8. -/
theorem witness_ParkedCoreStaysParked :
    let s := State.reset.withFetchWord 16 0x1200
    s.fault.code = .none ∧ s.parked := ⟨rfl, 0x200, by decide, by decide⟩

end Sys2Proof.Tests
end

section
/-! SUPPORT. The pieces of state that 10_state.md R26, R28, R29, R32, R33 and 20_memory.md R51, R60 give to a few
instructions each. Replacing such a piece commutes with every shared operation that does not reach it, and so with
every instruction that does not reach it. -/

namespace Sys2Proof.Machine

/-! ### Replacing a piece of state -/

/-- A piece of state that few instructions reach, with contents to put in place of its own. -/
inductive Piece where
  | stack (k : Vector Word 16)
  | dt (d : Byte)
  | st (d : Byte)
  | mem (m : Memory)
  | fb (f : Framebuffer)
  | keys (k : BitVec 16)

/-- The state with the piece's contents replaced. -/
def Piece.put : Piece → State → State
  | .stack k, s => { s with stack := k }
  | .dt d, s => { s with dt := d }
  | .st d, s => { s with st := d }
  | .mem m, s => { s with mem := m }
  | .fb f, s => { s with fb := f }
  | .keys k, s => { s with keys := k }

/-- The instructions that read or write a piece (R26, R28, R29, R51, R60). -/
def Piece.ReachedBy : Piece → Instr → Prop
  | .stack _, i => i = .ret ∨ ∃ nnn, i = .call nnn
  | .dt _, i => ∃ x, i = .ldVxDt x ∨ i = .ldDtVx x
  | .st _, i => ∃ x, i = .ldStVx x
  | .mem _, i => dataBytes i ≠ none
  | .fb _, i => i = .cls ∨ ∃ x y n, i = .drw x y n
  | .keys _, i => ∃ x, i = .skp x ∨ i = .sknp x ∨ i = .ldVxK x

/-! ### What a replaced piece leaves visible -/

@[simp] theorem Piece.put_cfg (p : Piece) (s : State) : (p.put s).cfg = s.cfg := by cases p <;> rfl
@[simp] theorem Piece.put_getV (p : Piece) (s : State) (r : RegIx) : (p.put s).getV r = s.getV r := by cases p <;> rfl
@[simp] theorem Piece.put_regsTo (p : Piece) (s : State) (x : RegIx) : (p.put s).regsTo x = s.regsTo x := by
  cases p <;> rfl
@[simp] theorem Piece.put_indexAddr (p : Piece) (s : State) : (p.put s).indexAddr = s.indexAddr := by cases p <;> rfl
@[simp] theorem Piece.put_rnd (p : Piece) (s : State) : (p.put s).rnd = s.rnd := by cases p <;> rfl

/-! ### The shared operations on a replaced piece -/

theorem Piece.put_advance (p : Piece) (s : State) : (p.put s).advance = p.put s.advance := by cases p <;> rfl

theorem Piece.put_raiseFault (p : Piece) (s : State) (r : Raise) :
    raiseFault (p.put s) r = p.put (raiseFault s r) := by cases p <;> rfl

theorem Piece.put_setV (p : Piece) (s : State) (r : RegIx) (b : Byte) : (p.put s).setV r b = p.put (s.setV r b) := by
  cases p <;> rfl

theorem Piece.put_skipIf (p : Piece) (c : Bool) (s : State) : (p.put s).skipIf c = p.put (s.skipIf c) := by
  cases c <;> cases p <;> rfl

theorem Piece.put_commit (p : Piece) (f : Byte → Byte → Bool) (r : Byte → Byte → Byte) (x y : RegIx) (s : State) :
    commit f r x y (p.put s) = p.put (commit f r x y s) := by
  unfold commit
  rw [p.put_cfg]
  cases s.cfg.vfDest <;> simp only [Piece.put_setV, Piece.put_getV]

theorem Piece.put_setRegsFrom (p : Piece) (bs : List Byte) : ∀ (s : State) (k : Nat),
    (p.put s).setRegsFrom k bs = p.put (s.setRegsFrom k bs) := by
  induction bs with
  | nil => exact fun _ _ => rfl
  | cons b bs ih =>
    intro s k
    have hb : { p.put s with v := (p.put s).v.setIfInBounds k b } = p.put { s with v := s.v.setIfInBounds k b } := by
      cases p <;> rfl
    rw [State.setRegsFrom, hb]
    exact ih _ (k + 1)

/-- A handler that commutes with the replacement does so under `runHandler`, whether it completes or raises. -/
theorem Piece.put_runHandler (p : Piece) {h : Handler} {s t : State}
    (hp : h (p.put s.advance) = (h s.advance).map p.put) (e : runHandler h s = .next t) :
    runHandler h (p.put s) = .next (p.put t) := by
  rw [← p.put_advance] at hp
  rcases runHandler_cases e with hok | ⟨r, her, rfl⟩
  · exact runHandler_ok (by rw [hp, hok]; rfl)
  · rw [← p.put_raiseFault]
    exact runHandler_error (by rw [hp, her]; rfl)

/-! ### Memory accesses reach no other piece -/

theorem Piece.put_memRead {p : Piece} (hp : ∀ m, p ≠ .mem m) (s : State) (a : Nat) :
    memRead (p.put s) a = memRead s a := by
  cases p with
  | mem m => exact absurd rfl (hp m)
  | stack _ | dt _ | st _ | fb _ | keys _ => rfl

theorem Piece.put_readBlock {p : Piece} (hp : ∀ m, p ≠ .mem m) (s : State) (n : Nat) : ∀ a : Nat,
    readBlock (p.put s) a n = readBlock s a n := by
  induction n with
  | zero => exact fun _ => rfl
  | succ n ih => intro a; simp only [readBlock, Piece.put_memRead hp, ih]

theorem Piece.put_memWrite {p : Piece} (hp : ∀ m, p ≠ .mem m) (s : State) (a : Nat) (b : Byte) :
    memWrite (p.put s) a b = (memWrite s a b).map p.put := by
  have hset : (p.put s).setByte a b = p.put (s.setByte a b) := by
    cases p with
    | mem m => exact absurd rfl (hp m)
    | stack _ | dt _ | st _ | fb _ | keys _ => rfl
  unfold memWrite
  split
  · rfl
  · rw [hset]; rfl

theorem Piece.put_writeBlock {p : Piece} (hp : ∀ m, p ≠ .mem m) (bs : List Byte) : ∀ (s : State) (a : Nat),
    writeBlock (p.put s) a bs = (writeBlock s a bs).map p.put := by
  induction bs with
  | nil => exact fun _ _ => rfl
  | cons b bs ih =>
    intro s a
    rw [writeBlock, writeBlock, Piece.put_memWrite hp]
    cases memWrite s a b with
    | error r => rfl
    | ok s' => exact ih s' (a + 1)

/-! ### Stack accesses reach no other piece -/

theorem Piece.put_push {p : Piece} (hp : ∀ k, p ≠ .stack k) (s : State) : (p.put s).push = s.push.map p.put := by
  cases p with
  | stack k => exact absurd rfl (hp k)
  | dt _ | st _ | mem _ | fb _ | keys _ =>
    unfold State.push
    by_cases h : s.sp.val < 16
    · rw [dif_pos h]; exact dif_pos h
    · rw [dif_neg h]; exact dif_neg h

theorem Piece.put_pop {p : Piece} (hp : ∀ k, p ≠ .stack k) (s : State) : (p.put s).pop = s.pop.map p.put := by
  cases p with
  | stack k => exact absurd rfl (hp k)
  | dt _ | st _ | mem _ | fb _ | keys _ =>
    unfold State.pop
    by_cases h : s.sp.val = 0
    · rw [dif_pos h]; exact dif_pos h
    · rw [dif_neg h]; exact dif_neg h

/-! ### The keypad is read as before when another piece is replaced -/

theorem Piece.put_pressed {p : Piece} (hp : ∀ k, p ≠ .keys k) (s : State) : (p.put s).pressed = s.pressed := by
  cases p with
  | keys k => exact absurd rfl (hp k)
  | stack _ | dt _ | st _ | mem _ | fb _ => rfl

theorem Piece.put_scanKeys {p : Piece} (hp : ∀ k, p ≠ .keys k) (s : State) : (p.put s).scanKeys = s.scanKeys := by
  simp only [State.scanKeys, Piece.put_pressed hp, p.put_cfg]

/-! ### The handlers that can raise -/

theorem Piece.put_callHandler {p : Piece} (hp : ∀ k, p ≠ .stack k) (nnn : BitVec 12) (s : State) :
    callHandler nnn (p.put s) = (callHandler nnn s).map p.put := by
  rw [callHandler, callHandler, Piece.put_push hp]
  cases s.push with
  | error r => rfl
  | ok s' => cases p <;> rfl

theorem Piece.put_drwHandler {p : Piece} (hm : ∀ m, p ≠ .mem m) (hf : ∀ f, p ≠ .fb f) (x y : RegIx)
    (n : BitVec 4) (s : State) : drwHandler x y n (p.put s) = (drwHandler x y n s).map p.put := by
  rw [drwHandler, drwHandler, Piece.put_readBlock hm, p.put_indexAddr]
  cases readBlock s s.indexAddr n.toNat with
  | error r => rfl
  | ok rows =>
    cases p with
    | fb f => exact absurd rfl (hf f)
    | stack _ | dt _ | st _ | mem _ | keys _ => rfl

theorem Piece.put_skpHandler {p : Piece} (hp : ∀ k, p ≠ .keys k) (x : RegIx) (s : State) :
    skpHandler x (p.put s) = (skpHandler x s).map p.put := by
  simp only [skpHandler, p.put_getV, Piece.put_pressed hp, p.put_skipIf]
  cases keyIndex (s.getV x) <;> rfl

theorem Piece.put_sknpHandler {p : Piece} (hp : ∀ k, p ≠ .keys k) (x : RegIx) (s : State) :
    sknpHandler x (p.put s) = (sknpHandler x s).map p.put := by
  simp only [sknpHandler, p.put_getV, Piece.put_pressed hp, p.put_skipIf]
  cases keyIndex (s.getV x) <;> rfl

theorem Piece.put_loadRegsHandler {p : Piece} (hp : ∀ m, p ≠ .mem m) (x : RegIx) (s : State) :
    loadRegsHandler x (p.put s) = (loadRegsHandler x s).map p.put := by
  simp only [loadRegsHandler, p.put_indexAddr, Piece.put_readBlock hp, p.put_setRegsFrom]
  cases readBlock s s.indexAddr (x.val + 1) <;> rfl

/-! ### Every instruction -/

/-- An instruction that does not reach a piece does the same with any contents in its place, and leaves them. -/
theorem Piece.exec_put {p : Piece} {i : Instr} (hp : ¬ p.ReachedBy i) {s t : State} (h : exec i s = .next t) :
    exec i (p.put s) = .next (p.put t) := by
  cases i with
  | ret => exact p.put_runHandler (Piece.put_pop (by rintro k rfl; exact hp (.inl rfl)) _) h
  | call nnn =>
    exact p.put_runHandler (Piece.put_callHandler (by rintro k rfl; exact hp (.inr ⟨nnn, rfl⟩)) nnn _) h
  | drw x y n =>
    exact p.put_runHandler (Piece.put_drwHandler (by rintro m rfl; exact hp nofun)
      (by rintro f rfl; exact hp (.inr ⟨x, y, n, rfl⟩)) x y n _) h
  | skp x => exact p.put_runHandler (Piece.put_skpHandler (by rintro k rfl; exact hp ⟨x, .inl rfl⟩) x _) h
  | sknp x => exact p.put_runHandler (Piece.put_sknpHandler (by rintro k rfl; exact hp ⟨x, .inr (.inl rfl)⟩) x _) h
  | ldB x =>
    refine p.put_runHandler (h := ldBHandler x) ?_ h
    rw [ldBHandler, p.put_indexAddr, p.put_getV]
    exact Piece.put_writeBlock (by rintro m rfl; exact hp nofun) _ _ _
  | storeRegs x =>
    refine p.put_runHandler (h := storeRegsHandler x) ?_ h
    rw [storeRegsHandler, p.put_indexAddr, p.put_regsTo]
    exact Piece.put_writeBlock (by rintro m rfl; exact hp nofun) _ _ _
  | loadRegs x => exact p.put_runHandler (Piece.put_loadRegsHandler (by rintro m rfl; exact hp nofun) x _) h
  | addReg _ _ | subReg _ _ | subnReg _ _ | shr _ | shl _ =>
    cases h
    refine congrArg Host.Outcome.next ?_
    simp only [p.put_cfg, p.put_advance, p.put_commit]
  | seImm _ _ | sneImm _ _ | seReg _ _ | sneReg _ _ =>
    cases h
    refine congrArg Host.Outcome.next ?_
    simp only [p.put_advance, p.put_getV, p.put_skipIf]
  | rnd x nn =>
    cases h
    refine congrArg Host.Outcome.next ?_
    simp only [p.put_advance, p.put_cfg, p.put_rnd, p.put_setV]
    split <;> rfl
  | ldVxK x =>
    cases h
    refine congrArg Host.Outcome.next ?_
    simp only [p.put_advance, Piece.put_scanKeys (p := p) (by rintro k rfl; exact hp ⟨x, .inr (.inr rfl)⟩)]
    cases s.advance.scanKeys <;> cases p <;> rfl
  | cls =>
    cases h
    cases p with
    | fb _ => exact absurd (.inl rfl) hp
    | stack _ | dt _ | st _ | mem _ | keys _ => rfl
  | ldVxDt x =>
    cases h
    cases p with
    | dt _ => exact absurd ⟨x, .inl rfl⟩ hp
    | stack _ | st _ | mem _ | fb _ | keys _ => rfl
  | ldDtVx x =>
    cases h
    cases p with
    | dt _ => exact absurd ⟨x, .inr rfl⟩ hp
    | stack _ | st _ | mem _ | fb _ | keys _ => rfl
  | ldStVx x =>
    cases h
    cases p with
    | st _ => exact absurd ⟨x, rfl⟩ hp
    | stack _ | dt _ | mem _ | fb _ | keys _ => rfl
  | jp _ | ldImm _ _ | addImm _ _ | ldReg _ _ | orReg _ _ | andReg _ _ | xorReg _ _ | ldI _ | jpV0 _ | addI _
  | ldF _ | unknown _ =>
    cases h
    cases p <;> rfl

/-! ### The call stack (R26) -/

/-- CALL pushes and jumps as before with any contents in the slots. -/
theorem exec_call_put_stack {nnn : BitVec 12} {s t : State} (h : exec (.call nnn) s = .next t)
    (k : Vector Word 16) : ∃ t', exec (.call nnn) { s with stack := k } = .next t' ∧
      t' = { t with stack := t'.stack } := by
  rw [exec_call] at h ⊢
  by_cases hs : s.sp.val < 16
  · rw [dif_pos hs] at h
    cases h
    exact ⟨_, dif_pos hs, rfl⟩
  · rw [dif_neg hs] at h
    cases h
    exact ⟨_, dif_neg hs, rfl⟩

/-- RET changes no slot (R27: the slot keeps its value). -/
theorem exec_ret_stack {s t : State} (h : exec .ret s = .next t) : t.stack = s.stack := by
  rw [exec_ret] at h
  split at h <;> (cases h; rfl)

/-- A memory write that is not refused writes one byte. -/
theorem eq_setByte_of_memWrite {s t : State} {a : Nat} {b : Byte} (h : memWrite s a b = .ok t) : t = s.setByte a b := by
  unfold memWrite at h
  split at h <;> cases h
  rfl

/-- Settles O43, by the replacement of the stack in every instruction that does not reach it. -/
theorem stackIsReachedByCallAndRetAlone : Obligations.StackIsReachedByCallAndRetAlone := by
  refine ⟨fun i s t k hret hcall h => ?_, fun s t nnn k h => exec_call_put_stack h k, fun s t h => exec_ret_stack h,
    fun s t a b h => ?_, fun s a k => ?_⟩
  · have hp : ¬ (Piece.stack k).ReachedBy i := fun hi => hi.elim hret fun ⟨nnn, e⟩ => hcall nnn e
    exact Piece.exec_put hp h
  · rw [eq_setByte_of_memWrite h, State.setByte_stack]
  · exact Piece.put_memRead (p := .stack k) (fun _ => nofun) s a

/-! ### The timers (R28, R29) -/

/-- A running timer's countdown takes one off. -/
theorem countdown_toNat_succ {t : Byte} (h : t ≠ 0) : (countdown t).toNat + 1 = t.toNat := by
  have hpos : t.toNat ≠ 0 := fun e => h (BitVec.eq_of_toNat_eq e)
  rw [countdown_toNat]
  omega

/-- The end of a tick leaves FAULT as it is. -/
theorem endTick_fault (s : State) : (endTick s).fault = s.fault := by
  by_cases h : s.fault.code = .none
  · rw [endTick_completed h, useInputs_fault, timerCountdown_fault]
  · rw [endTick_faulted h, useInputs_fault]

/-- A step that starts and ends without a fault is its next instruction, then the countdown (R81, R223). -/
theorem step_completed {s u : State} (hs : s.fault.code = .none) (h : step s = .next u)
    (hu : u.fault.code = .none) :
    ∃ i t, s.nextInstr = some i ∧ exec i s = .next t ∧ u = useInputs (timerCountdown t) := by
  rcases step_cases h with ⟨hf, -⟩ | ⟨-, -, rfl⟩ | ⟨-, hpc, t, ht, rfl⟩
  · exact absurd hs hf
  · cases hu
  · rw [endTick_fault] at hu
    exact ⟨_, t, by rw [State.nextInstr, fetch_inRange hpc], ht, endTick_completed hu⟩

/-- Settles O44, by the replacement of a timer in every instruction that does not reach it. -/
theorem timersAreReachedByTheirInstructionsAlone : Obligations.TimersAreReachedByTheirInstructionsAlone := by
  refine ⟨fun i s t d hi h => ?_, fun i s t d hi h => ?_, fun s x d => ?_, fun s u hs h hu => ?_⟩
  · have hp : ¬ (Piece.dt d).ReachedBy i := fun ⟨x, hx⟩ => hx.elim (hi x).1 (hi x).2
    exact Piece.exec_put hp h
  · have hp : ¬ (Piece.st d).ReachedBy i := fun ⟨x, hx⟩ => hi x hx
    exact Piece.exec_put hp h
  · exact ⟨⟨_, rfl, State.getV_setV_same _ _ _, rfl⟩, ⟨_, rfl, rfl⟩, ⟨_, rfl, rfl⟩, rfl, rfl⟩
  · obtain ⟨i, t, hi, ht, rfl⟩ := step_completed hs h hu
    refine ⟨i, t, hi, ht, ?_⟩
    simp only [useInputs_dt, useInputs_st, timerCountdown_dt, timerCountdown_st]
    exact ⟨fun h0 => by rw [h0]; rfl, countdown_toNat_succ, fun h0 => by rw [h0]; rfl, countdown_toNat_succ⟩

end Sys2Proof.Machine
end

section
/-! SUPPORT. The memory accesses of 20_memory.md R51, and what R60 keeps apart from memory. An instruction that reads a
block depends on memory through the block's bytes alone; one that stores a block changes no byte outside it. -/

namespace Sys2Proof.Machine

/-! ### Reads -/

/-- A block read is the same from any memory that holds the same bytes there. -/
theorem readBlock_put_mem {m : Memory} {s : State} {a n : Nat}
    (hb : ∀ k, k < n → ((Piece.mem m).put s).byteAt (a + k) = s.byteAt (a + k)) :
    readBlock ((Piece.mem m).put s) a n = readBlock s a n := by
  have hbytes : ((Piece.mem m).put s).bytesAt a n = s.bytesAt a n := by
    refine List.ext_getElem (by simp) fun k hk _ => ?_
    rw [State.bytesAt_getElem, State.bytesAt_getElem]
    exact hb k (by simpa using hk)
  rw [readBlock_spec, readBlock_spec, hbytes]

/-- DXYN depends on memory through its N bytes from I on alone, and writes none (R51). -/
theorem exec_drw_put_mem {x y : RegIx} {n : BitVec 4} {s t : State} {m : Memory}
    (hb : ∀ k, k < n.toNat → ((Piece.mem m).put s).byteAt (s.indexAddr + k) = s.byteAt (s.indexAddr + k))
    (h : exec (.drw x y n) s = .next t) : exec (.drw x y n) ((Piece.mem m).put s) = .next ((Piece.mem m).put t) := by
  refine Piece.put_runHandler _ (h := drwHandler x y n) ?_ h
  have hr : readBlock ((Piece.mem m).put s.advance) s.advance.indexAddr n.toNat =
      readBlock s.advance s.advance.indexAddr n.toNat := readBlock_put_mem hb
  rw [drwHandler, drwHandler, Piece.put_indexAddr, hr]
  cases readBlock s.advance s.advance.indexAddr n.toNat <;> rfl

/-- FX65 depends on memory through its X + 1 bytes from I on alone, and writes none (R51). -/
theorem exec_loadRegs_put_mem {x : RegIx} {s t : State} {m : Memory}
    (hb : ∀ k, k < x.val + 1 → ((Piece.mem m).put s).byteAt (s.indexAddr + k) = s.byteAt (s.indexAddr + k))
    (h : exec (.loadRegs x) s = .next t) : exec (.loadRegs x) ((Piece.mem m).put s) = .next ((Piece.mem m).put t) := by
  refine Piece.put_runHandler _ (h := loadRegsHandler x) ?_ h
  have hr : readBlock ((Piece.mem m).put s.advance) s.advance.indexAddr (x.val + 1) =
      readBlock s.advance s.advance.indexAddr (x.val + 1) := readBlock_put_mem hb
  simp only [loadRegsHandler, Piece.put_indexAddr, hr, Piece.put_setRegsFrom]
  cases readBlock s.advance s.advance.indexAddr (x.val + 1) <;> rfl

/-- The fetch depends on memory through the bytes at pc and pc + 1 alone (R51). -/
theorem fetch_put_mem {s : State} {m : Memory} (hhi : ((Piece.mem m).put s).byteAt s.pc.toNat = s.byteAt s.pc.toNat)
    (hlo : ((Piece.mem m).put s).byteAt (s.pc.toNat + 1) = s.byteAt (s.pc.toNat + 1)) :
    fetch ((Piece.mem m).put s) = fetch s := by
  have hpc : ((Piece.mem m).put s).pc = s.pc := rfl
  rw [fetch, fetch, hpc, hhi, hlo]

/-! ### Stores -/

/-- The bytes FX33 or FX55 stores from I on (R163, R164). -/
def State.storedBytes (s : State) : Instr → Option (List Byte)
  | .ldB x => some (bcdDigits (s.getV x))
  | .storeRegs x => some (s.regsTo x)
  | _ => none

/-- All a storing instruction can do: store its bytes from I on, or take MEM_OUT_OF_RANGE. -/
theorem exec_store {i : Instr} {s : State} {bs : List Byte} (hi : s.storedBytes i = some bs) :
    exec i s = if s.indexAddr + bs.length ≤ memSize then .next (s.advance.setBytes s.indexAddr bs)
      else .next (raiseFault s ⟨.memOutOfRange, BitVec.ofNat 16 (max s.indexAddr memSize)⟩) := by
  unfold State.storedBytes at hi
  split at hi
  case h_1 x => cases hi; exact exec_ldB x s
  case h_2 x => cases hi; rw [State.regsTo_length]; exact exec_storeRegs x s
  case h_3 => cases hi

/-- A storing instruction changes no byte outside I..I + length - 1 (R51). -/
theorem exec_store_byteAt_outside {i : Instr} {s t : State} {bs : List Byte} (hi : s.storedBytes i = some bs)
    (hs : s.memWf) (h : exec i s = .next t) {a : Nat} (ha : a < s.indexAddr ∨ s.indexAddr + bs.length ≤ a) :
    t.byteAt a = s.byteAt a := by
  rw [exec_store hi] at h
  split at h
  · cases h
    have hout : ¬ (s.indexAddr ≤ a ∧ a < s.indexAddr + bs.length) := by omega
    rw [State.byteAt_setBytes bs (s := s.advance) a hs ‹_›, if_neg hout, State.advance_byteAt]
  · cases h; rfl

/-- What memory holds changes nothing of a storing instruction's effect but memory (R51). -/
theorem exec_store_put_mem {i : Instr} {s t : State} {bs : List Byte} (hi : s.storedBytes i = some bs)
    (h : exec i s = .next t) (m : Memory) :
    ∃ t', exec i ((Piece.mem m).put s) = .next t' ∧ t' = { t with mem := t'.mem } := by
  have hi' : ((Piece.mem m).put s).storedBytes i = some bs := hi
  rw [exec_store hi] at h
  rw [exec_store hi', Piece.put_indexAddr]
  by_cases hr : s.indexAddr + bs.length ≤ memSize
  · rw [if_pos hr] at h ⊢
    cases h
    refine ⟨_, rfl, ?_⟩
    rw [State.setBytes_eq, State.setBytes_eq bs s.advance]; rfl
  · rw [if_neg hr] at h ⊢
    cases h
    exact ⟨_, rfl, rfl⟩

/-- Settles O41, by the replacement of memory in every instruction outside R51's list, and the blocks of those in it. -/
theorem onlyListedInstructionsAccessMemory : Obligations.OnlyListedInstructionsAccessMemory := by
  refine ⟨fun i s t m hi h => ?_, fun i s t m n hi hb h => ?_, fun i s t n hi hs h a ha => ?_,
    fun i s t m hi h => ?_, fun s m hhi hlo => fetch_put_mem hhi hlo⟩
  · exact Piece.exec_put (p := .mem m) (fun hreach => hreach hi) h
  · obtain ⟨x, y, k, rfl, rfl⟩ | ⟨x, rfl, rfl⟩ := hi
    · exact exec_drw_put_mem hb h
    · exact exec_loadRegs_put_mem hb h
  · obtain ⟨x, rfl, rfl⟩ | ⟨x, rfl, rfl⟩ := hi
    · exact exec_store_byteAt_outside (bs := bcdDigits (s.getV x)) rfl hs h ha
    · exact exec_store_byteAt_outside rfl hs h (by rwa [State.regsTo_length])
  · obtain ⟨x, rfl⟩ | ⟨x, rfl⟩ := hi <;> exact exec_store_put_mem rfl h m

/-! ### The framebuffer and the keypad (R60) -/

/-- Settles O42, by the replacement of each in every instruction that does not reach it. -/
theorem framebufferAndKeypadAreApart : Obligations.FramebufferAndKeypadAreApart := by
  refine ⟨fun i s t f hcls hdrw h => ?_, fun i s t k hkey h => ?_, fun s t a b h => ?_, fun s a f k => ?_⟩
  · have hp : ¬ (Piece.fb f).ReachedBy i := fun hi => hi.elim hcls fun ⟨x, y, n, e⟩ => hdrw x y n e
    exact Piece.exec_put hp h
  · have hp : ¬ (Piece.keys k).ReachedBy i := by
      rintro ⟨x, hi⟩
      obtain ⟨hskp, hsknp, hldVxK⟩ := hkey x
      exact hi.elim hskp (·.elim hsknp hldVxK)
    exact Piece.exec_put hp h
  · rw [eq_setByte_of_memWrite h]
    exact ⟨State.setByte_fb s a b, State.setByte_keys s a b⟩
  · calc memRead ((Piece.fb f).put ((Piece.keys k).put s)) a
        = memRead ((Piece.keys k).put s) a := Piece.put_memRead (p := .fb f) (fun _ => nofun) _ a
      _ = memRead s a := Piece.put_memRead (p := .keys k) (fun _ => nofun) s a

end Sys2Proof.Machine
end

section
/-! SUPPORT. The decoder on family 0 (30_encoding.md R74): the low nibble says it all, since no operand field is read. -/

namespace Sys2Proof.Machine

/-- A word that matches 0000 under the mask F000 goes to the dispatch of family 0, under every parameter setting. -/
theorem decode_of_family0 (cfg : Config) {w : Word} (h : w &&& 0xF000 = 0x0000) :
    decode cfg w = decodeFamily0 w := by
  have hf : family w = 0x0#4 := family_of_match h
  rw [decode, hf]; rfl

/-- Settles O4, by the dispatch of family 0 on the low nibble. -/
theorem familyZeroDispatchesOnLowNibble : Obligations.FamilyZeroDispatchesOnLowNibble := by
  intro cfg w h
  rw [decode_of_family0 cfg h, decodeFamily0, fieldN_eq_opN]
  refine ⟨fun h0 => ?cls, fun hE => ?ret, fun h0 hE => ?unknown⟩
  case cls => rw [h0]; rfl
  case ret => rw [hE]; rfl
  case unknown =>
    split
    · exact absurd ‹opN w = 0x0#4› h0
    · exact absurd ‹opN w = 0xE#4› hE
    · rfl

end Sys2Proof.Machine
end

section
/-! SUPPORT. The display clear, the call and the conditional skips (40_control_flow.md R100, R103, R109): where a skip
ends, and what the stack holds after a push. -/

namespace Sys2Proof.Machine

/-! ### The display clear (R100) -/

theorem blankFrame_get (x : Fin 64) (y : Fin 32) : blankFrame.get x y = false := by
  simp [Framebuffer.get, blankFrame]

/-- Low nibble 0 in family 0 is CLS, whatever bits 11:4 hold. -/
theorem decode_cls_of_match (cfg : Config) {w : Word} (h : w &&& 0xF00F = 0x0000) : decode cfg w = .cls := by
  obtain ⟨hf, hn⟩ : family w = 0x0#4 ∧ fieldN w = 0x0#4 := fields_of_match_nibble h
  simp only [decode, hf, decodeFamily0, hn]

/-- Settles O14, by the pixels of the blank frame. -/
theorem clsClearsEveryPixel : Obligations.ClsClearsEveryPixel :=
  ⟨fun cfg _ h => decode_cls_of_match cfg h, fun _ => ⟨_, rfl, blankFrame_get, rfl⟩⟩

/-! ### The call (R103) -/

theorem decode_call_of_match (cfg : Config) {w : Word} (h : w &&& 0xF000 = 0x2000) :
    decode cfg w = .call (opNNN w) := by
  have hf : family w = 0x2#4 := family_of_match h
  rw [decode, hf, ← fieldNNN_eq_opNNN]; rfl

/-- A return-address stack after a write to slot `k`: the value written, or what the slot held. -/
theorem getElem_stack_set (stack : Vector Word 16) (k j : Fin 16) (a : Word) :
    (stack.set k.val a)[j] = if j = k then a else stack[j] := by
  simp only [Fin.getElem_fin, Vector.getElem_set, Fin.ext_iff, eq_comm]

/-- CALL with room on the stack (R103), for the slot `k` that SP names. -/
theorem exec_call_notFull (nnn : BitVec 12) {s : State} {k : Fin 16} (hk : s.sp.val = k.val) :
    exec (.call nnn) s =
      .next { s with stack := s.stack.set k.val (s.pc + 2), sp := k.succ, pc := nnn.setWidth 16 } := by
  have hlt : s.sp.val < 16 := hk ▸ k.isLt
  obtain rfl : k = ⟨s.sp.val, hlt⟩ := Fin.ext hk.symm
  rw [exec_call, dif_pos hlt]; rfl

/-- CALL on a full stack (R103). -/
theorem exec_call_full (nnn : BitVec 12) {s : State} (hs : s.sp = 16) :
    exec (.call nnn) s = .next (raiseFault s ⟨.stackOverflow, 0⟩) := by
  rw [exec_call, dif_neg (by rw [hs]; decide)]

/-- Settles O17, by the two cases of CALL: room on the stack, or a full stack. -/
theorem callPushesReturnAddress : Obligations.CallPushesReturnAddress := by
  refine ⟨fun cfg _ h => decode_call_of_match cfg h, fun s nnn k hk => ?notFull, fun _ nnn => exec_call_full nnn⟩
  case notFull =>
    refine ⟨_, exec_call_notFull nnn hk, ?slot, fun j hj => ?otherSlots, rfl, ?target, rfl⟩
    case slot => rw [getElem_stack_set, if_pos rfl]
    case otherSlots => rw [getElem_stack_set, if_neg hj]
    case target => exact BitVec.toNat_setWidth_of_le (by decide)

/-! ### The conditional skips (R109) -/

/-- A skip on a condition that holds ends two bytes further than one on a condition that does not (R109). -/
theorem State.advance_skipIf (s : State) {c : Bool} {p : Prop} [Decidable p] (h : c = true ↔ p) :
    s.advance.skipIf c = { s with pc := if p then s.pc + 4 else s.pc + 2 } := by
  have h4 : s.pc + 2 + 2 = s.pc + 4 := BitVec.add_assoc ..
  by_cases hp : p
  · rw [h.mpr hp, if_pos hp, ← h4]; rfl
  · rw [Bool.eq_false_iff.mpr (mt h.mp hp), if_neg hp]; rfl

/-- A skip on the negation of a condition. -/
theorem State.advance_skipIf_not (s : State) {c : Bool} {p : Prop} [Decidable p] (h : c = true ↔ p) :
    s.advance.skipIf (!c) = { s with pc := if p then s.pc + 2 else s.pc + 4 } := by
  have hn : (!c) = true ↔ ¬ p := by rw [← h, Bool.not_eq_true', Bool.not_eq_true]
  rw [State.advance_skipIf s hn, ite_not]

/-- SKP on a key of the keypad (R200). -/
theorem exec_skp_key {x : RegIx} {s : State} {k : RegIx} (hk : (s.getV x).toNat = k.val) :
    exec (.skp x) s = .next (s.advance.skipIf (s.pressed k)) := by
  have hlt : (s.getV x).toNat < 16 := hk ▸ k.isLt
  obtain rfl : k = ⟨(s.getV x).toNat, hlt⟩ := Fin.ext hk.symm
  rw [exec_skp, dif_pos hlt]

/-- SKNP on a key of the keypad (R201). -/
theorem exec_sknp_key {x : RegIx} {s : State} {k : RegIx} (hk : (s.getV x).toNat = k.val) :
    exec (.sknp x) s = .next (s.advance.skipIf (!s.pressed k)) := by
  have hlt : (s.getV x).toNat < 16 := hk ▸ k.isLt
  obtain rfl : k = ⟨(s.getV x).toNat, hlt⟩ := Fin.ext hk.symm
  rw [exec_sknp, dif_pos hlt]

/-- Settles O19: each skip is `skipIf` on its condition, or on the negation of it, after the pc advance. -/
theorem skipsAdvanceByTwoMore : Obligations.SkipsAdvanceByTwoMore := by
  refine fun s x y nn => ⟨?seImm, ?sneImm, ?seReg, ?sneReg, fun k hk => ⟨?skp, ?sknp⟩⟩
  case seImm => exact congrArg _ (s.advance_skipIf beq_iff_eq)
  case sneImm => exact congrArg _ (s.advance_skipIf_not beq_iff_eq)
  case seReg => exact congrArg _ (s.advance_skipIf beq_iff_eq)
  case sneReg => exact congrArg _ (s.advance_skipIf_not beq_iff_eq)
  case skp => rw [exec_skp_key hk]; exact congrArg _ (s.advance_skipIf Iff.rfl)
  case sknp => rw [exec_sknp_key hk]; exact congrArg _ (s.advance_skipIf_not Iff.rfl)

end Sys2Proof.Machine
end

section
/-! SUPPORT. The load of an immediate byte (41_arithmetic.md R130). -/

namespace Sys2Proof.Machine

theorem decode_ldImm_of_match (cfg : Config) {w : Word} (h : w &&& 0xF000 = 0x6000) :
    decode cfg w = .ldImm (opX w) (opNN w) := by
  have hf : family w = 0x6#4 := family_of_match h
  rw [decode, hf, ← fieldX_eq_opX, ← fieldNN_eq_opNN]; rfl

/-- LD VX, NN is a write of VX after the pc advance. -/
theorem exec_ldImm (x : RegIx) (nn : Byte) (s : State) :
    exec (.ldImm x nn) s = .next (s.advance.setV x nn) := rfl

/-- Settles O21, by what a register holds after a write: the byte written, or what it held. -/
theorem ldImmLoadsByte : Obligations.LdImmLoadsByte := by
  refine ⟨fun cfg _ h => decode_ldImm_of_match cfg h, fun s x nn => ⟨_, exec_ldImm x nn s, ?loaded, ?others, rfl⟩⟩
  case loaded => exact s.advance.getV_setV_same x nn
  case others => exact fun q hq => s.advance.getV_setV_other nn hq

end Sys2Proof.Machine
end

section
/-! SUPPORT. The load of I and the store of the decimal digits (42_memory_index.md R160, R163): what each byte of a stored
block reads as, and which address of a block is the first out of range. -/

namespace Sys2Proof.Machine

/-! ### The load of I (R160) -/

theorem decode_ldI_of_match (cfg : Config) {w : Word} (h : w &&& 0xF000 = 0xA000) :
    decode cfg w = .ldI (opNNN w) := by
  have hf : family w = 0xA#4 := family_of_match h
  rw [decode, hf, ← fieldNNN_eq_opNNN]; rfl

/-- LD I, NNN writes I after the pc advance, unchecked. -/
theorem exec_ldI (nnn : BitVec 12) (s : State) :
    exec (.ldI nnn) s = .next { s.advance with i := nnn.setWidth 16 } := rfl

/-- Settles O27: the 12-bit NNN keeps its value in the 16-bit I. -/
theorem ldISetsIndex : Obligations.LdISetsIndex :=
  ⟨fun cfg _ h => decode_ldI_of_match cfg h,
    fun s nnn => ⟨_, exec_ldI nnn s, BitVec.toNat_setWidth_of_le (by decide), rfl⟩⟩

/-! ### The store of the decimal digits (R163) -/

/-- A word of family F goes to the dispatch on its low byte, under every parameter setting. -/
theorem decode_of_familyF (cfg : Config) {w : Word} (hf : family w = 0xF#4) : decode cfg w = decodeFamilyF w := by
  rw [decode, hf]; rfl

/-- The low byte 33 in family F is LD B, VX. -/
theorem decode_ldB_of_match (cfg : Config) {w : Word} (h : w &&& 0xF0FF = 0xF033) :
    decode cfg w = .ldB (opX w) := by
  obtain ⟨hf, hn⟩ : family w = 0xF#4 ∧ fieldNN w = 0x33#8 := fields_of_match_byte h
  rw [decode_of_familyF cfg hf, decodeFamilyF, hn, ← fieldX_eq_opX]; rfl

/-- Byte `k` of a stored block reads back at offset `k`. -/
theorem State.byteAt_setBytes_offset {s : State} {a k : Nat} {bs : List Byte} (hs : s.memWf)
    (hr : a + bs.length ≤ memSize) (hk : k < bs.length) : (s.setBytes a bs).byteAt (a + k) = bs[k] := by
  have hin : a ≤ a + k ∧ a + k < a + bs.length := by omega
  rw [State.byteAt_setBytes bs (a + k) hs hr, if_pos hin, Nat.add_sub_cancel_left, List.getD_eq_getElem _ _ hk]

/-- The first address of a block above 0xFFF, at offset `k`, is the block's start or MEM_SIZE, whichever is higher. -/
theorem max_memSize_eq_firstOutOfRange {a k : Nat} (hk : 0xFFF < a + k) (hfirst : ∀ j, j < k → a + j ≤ 0xFFF) :
    max a memSize = a + k := by
  rw [memSize]
  cases k with
  | zero => omega
  | succ j => have := hfirst j (Nat.lt_succ_self j); omega

/-- LD B with its three bytes in range (R163). -/
theorem exec_ldB_inRange (x : RegIx) {s : State} (hr : s.indexAddr + 2 ≤ 0xFFF) :
    exec (.ldB x) s = .next (s.advance.setBytes s.indexAddr (bcdDigits (s.getV x))) := by
  have hm : s.indexAddr + 3 ≤ memSize := Nat.succ_le_succ hr
  rw [exec_ldB, if_pos hm]

/-- LD B with one of its three bytes out of range (R163). -/
theorem exec_ldB_outOfRange (x : RegIx) {s : State} {k : Nat} (hk : k ≤ 2) (ha : 0xFFF < s.indexAddr + k)
    (hfirst : ∀ j, j < k → s.indexAddr + j ≤ 0xFFF) :
    exec (.ldB x) s = .next (raiseFault s ⟨.memOutOfRange, BitVec.ofNat 16 (s.indexAddr + k)⟩) := by
  have hm : ¬ s.indexAddr + 3 ≤ memSize := by rw [memSize]; omega
  rw [exec_ldB, if_neg hm, max_memSize_eq_firstOutOfRange ha hfirst]

/-- Settles O29, by the two cases of LD B: a block in range is stored byte by byte, any other takes the fault. -/
theorem ldBStoresDigits : Obligations.LdBStoresDigits := by
  refine ⟨fun cfg _ h => decode_ldB_of_match cfg h, fun s x => ⟨fun hs hr => ?stored, fun k hk ha hfirst => ?fault⟩⟩
  case fault => exact exec_ldB_outOfRange x hk ha hfirst
  case stored =>
    have hread : ∀ k (hk : k < 3),
        (s.advance.setBytes s.indexAddr (bcdDigits (s.getV x))).byteAt (s.indexAddr + k) = (bcdDigits (s.getV x))[k] :=
      fun _ hk => State.byteAt_setBytes_offset (s := s.advance) hs (Nat.succ_le_succ hr) hk
    refine ⟨_, exec_ldB_inRange x hr, ?hundreds, ?tens, ?ones, fun a ha => ?outside, State.setBytes_eq _ _ _⟩
    case hundreds => exact (congrArg BitVec.toNat (hread 0 (by decide))).trans BitVec.toNat_udiv
    case tens =>
      calc _ = (s.getV x / 10 % 10).toNat := congrArg BitVec.toNat (hread 1 (by decide))
        _ = (s.getV x).toNat / 10 % 10 := by rw [BitVec.toNat_umod, BitVec.toNat_udiv]; rfl
    case ones => exact (congrArg BitVec.toNat (hread 2 (by decide))).trans BitVec.toNat_umod
    case outside => exact exec_store_byteAt_outside (bs := bcdDigits (s.getV x)) rfl hs (exec_ldB_inRange x hr) ha

end Sys2Proof.Machine
end

section
/-! SUPPORT. Decoding (30_encoding.md R72 to R82): the round trip with the encoder, the rows of the opcode map with their
fields by division, and that a word fits one row at most. -/

namespace Sys2Proof.Machine

/-! ### The round trip -/

/-- Decoding the word of an instruction gives it back: each format keeps its operands. -/
theorem decode_encode {cfg : Config} {i : Instr} (hi : i.wellFormed cfg = true) : decode cfg (encode i) = i := by
  cases i with
  | cls | ret => rfl
  | jp _ | call _ | ldI _ | jpV0 _ => simp [encode, decode]
  | seImm _ _ | sneImm _ _ | ldImm _ _ | addImm _ _ => simp [encode, decode]
  | seReg _ _ | sneReg _ _ | drw _ _ _ => simp [encode, decode]
  | ldReg _ _ | orReg _ _ | andReg _ _ | xorReg _ _ | addReg _ _ | subReg _ _ | shr _ | subnReg _ _ | shl _ =>
    simp [encode, decode, decodeFamily8]
  | rnd x nn =>
    have hm : cfg.cxnnMode = .random := eq_of_beq hi
    simp [encode, decode, decodeFamilyC, hm]
  | skp _ | sknp _ => simp [encode, decode, decodeFamilyE]
  | ldVxDt _ | ldVxK _ | ldDtVx _ | ldStVx _ | addI _ | ldF _ | ldB _ | storeRegs _ | loadRegs _ =>
    simp [encode, decode, decodeFamilyF]
  | unknown w => exact decode_of_isUnknownWord hi

/-- Settles O2, by the formats' fields, on the word and on the two bytes in memory order. -/
theorem decodeEncodeRoundTrip : Obligations.DecodeEncodeRoundTrip := by
  intro cfg i hi
  refine ⟨decode_encode hi, ?_⟩
  rw [decodeBytes_encodeBytes, decode_encode hi]

/-! ### The fields that a row of the opcode map fixes -/

/-- A match under the mask F000 fixes the family. -/
theorem family_of_and {w v : Word} (h : w &&& 0xF000 = v) : family w = family v := by
  rw [← h, and_F000_eq, family_wordXYN]

/-- A match under the mask F00F fixes the family and the low nibble. -/
theorem family_fieldN_of_and {w v : Word} (h : w &&& 0xF00F = v) : family w = family v ∧ fieldN w = fieldN v := by
  rw [← h, and_F00F_eq, family_wordXYN, fieldN_wordXYN]; exact ⟨rfl, rfl⟩

/-- A match under the mask F0FF fixes the family and the low byte. -/
theorem family_fieldNN_of_and {w v : Word} (h : w &&& 0xF0FF = v) : family w = family v ∧ fieldNN w = fieldNN v := by
  rw [← h, and_F0FF_eq, family_wordXNN, fieldNN_wordXNN]; exact ⟨rfl, rfl⟩

/-- Settles O5: a row's match fixes what the decoder dispatches on, and leaves the operand fields free. -/
theorem opcodeMapRowsDecode : Obligations.OpcodeMapRowsDecode := by
  intro cfg w
  simp only [← fieldX_eq_opX, ← fieldY_eq_opY, ← fieldN_eq_opN, ← fieldNN_eq_opNN]
  refine ⟨fun h => ?seImm, fun h => ?sneImm, fun h => ?seReg, fun h => ?addImm, fun h => ?ldReg, fun h => ?orReg,
    fun h => ?andReg, fun h => ?xorReg, fun h => ?addReg, fun h => ?subReg, fun h => ?shr, fun h => ?subnReg,
    fun h => ?shl, fun h => ?sneReg, fun h => ?rnd, fun h => ?drw, fun h => ?skp, fun h => ?sknp, fun h => ?ldVxDt,
    fun h => ?ldVxK, fun h => ?ldDtVx, fun h => ?ldStVx, fun h => ?addI, fun h => ?ldF, fun h => ?storeRegs,
    fun h => ?loadRegs⟩
  case seImm | sneImm | seReg | addImm | sneReg | rnd | drw => rw [decode, family_of_and h]; rfl
  case ldReg | orReg | andReg | xorReg | addReg | subReg | shr | subnReg | shl =>
    obtain ⟨hf, hn⟩ := family_fieldN_of_and h
    calc decode cfg w = decodeFamily8 w := by rw [decode, hf]; rfl
      _ = _ := by rw [decodeFamily8, hn]; rfl
  case skp | sknp =>
    obtain ⟨hf, hn⟩ := family_fieldN_of_and h
    calc decode cfg w = decodeFamilyE w := by rw [decode, hf]; rfl
      _ = _ := by rw [decodeFamilyE, hn]; rfl
  case ldVxDt | ldVxK | ldDtVx | ldStVx | addI | ldF | storeRegs | loadRegs =>
    obtain ⟨hf, hnn⟩ := family_fieldNN_of_and h
    calc decode cfg w = decodeFamilyF w := by rw [decode, hf]; rfl
      _ = _ := by rw [decodeFamilyF, hnn]; rfl

/-! ### Exactly one row fits a word that is no unknown opcode -/

/-- The rows of the opcode map are the rows of the known instructions, whatever their operands. -/
theorem row_mem_opcodeMap {i : Instr} (hi : ∀ w, i ≠ .unknown w) : i.row ∈ opcodeMap := by
  cases i with
  | unknown w => exact absurd rfl (hi w)
  | _ => simp [opcodeMap, Instr.row]

/-- The rows of the opcode map are pairwise incompatible: under the bits that both masks keep, their values differ. -/
theorem opcodeMap_incompatible :
    opcodeMap.Pairwise fun r r' => r.value &&& r'.mask ≠ r'.value &&& r.mask := by
  decide

/-- No word fits two rows of the opcode map (30_encoding.md §4). -/
theorem opcodeMap_pairwise_not_fits (w : Word) :
    opcodeMap.Pairwise fun r r' => ¬ (r.fits w = true ∧ r'.fits w = true) := by
  refine opcodeMap_incompatible.imp fun {r r'} hne ⟨hr, hr'⟩ => hne ?_
  rw [← eq_of_beq hr, ← eq_of_beq hr', BitVec.and_assoc, BitVec.and_assoc, BitVec.and_comm r.mask]

/-- A row of the map that a word fits is the only one. -/
theorem opcodeMap_filter_fits {r : OpcodeRow} {w : Word} (hm : r ∈ opcodeMap) (hr : r.fits w = true) :
    opcodeMap.filter (fun r => r.fits w) = [r] := by
  have hmem : r ∈ opcodeMap.filter (fun r => r.fits w) := List.mem_filter.mpr ⟨hm, hr⟩
  have hpair := (opcodeMap_pairwise_not_fits w).filter (fun r => r.fits w)
  have hfits : ∀ c ∈ opcodeMap.filter (fun r => r.fits w), c.fits w = true := fun _ hc => (List.mem_filter.mp hc).2
  generalize opcodeMap.filter (fun r => r.fits w) = l at hmem hpair hfits ⊢
  match l with
  | [a] => rw [List.mem_singleton.mp hmem]
  | a :: b :: l => exact absurd ⟨hfits a (by simp), hfits b (by simp)⟩ (List.rel_of_pairwise_cons hpair (by simp))

/-! ### What a word decodes to -/

/-- A well-formed instruction other than the unknown opcode, whose row the word fits. -/
def Known (cfg : Config) (w : Word) (i : Instr) : Prop :=
  i.row.fits w = true ∧ i.wellFormed cfg = true ∧ ∀ u, i ≠ .unknown u

theorem fits_of_family {m : String} {w : Word} {f : BitVec 4} (hf : family w = f) :
    OpcodeRow.fits ⟨m, 0xF000, wordXYN f 0 0 0⟩ w = true := by
  simp only [OpcodeRow.fits, and_F000_eq, hf, BEq.rfl]

theorem fits_of_nibble {m : String} {w : Word} {f n : BitVec 4} (hf : family w = f) (hn : fieldN w = n) :
    OpcodeRow.fits ⟨m, 0xF00F, wordXYN f 0 0 n⟩ w = true := by
  simp only [OpcodeRow.fits, and_F00F_eq, hf, hn, BEq.rfl]

theorem fits_of_byte {m : String} {w : Word} {f : BitVec 4} {nn : Byte} (hf : family w = f) (hn : fieldNN w = nn) :
    OpcodeRow.fits ⟨m, 0xF0FF, wordXNN f 0 nn⟩ w = true := by
  simp only [OpcodeRow.fits, and_F0FF_eq, hf, hn, BEq.rfl]

theorem decodeFamily0_known {cfg : Config} {w : Word} (hf : family w = 0x0#4) :
    Known cfg w (decodeFamily0 w) ∨ isUnknownWord cfg w = true := by
  unfold decodeFamily0
  split
  case h_3 => right; rw [isUnknownWord_eq, hf]; simp_all
  all_goals exact .inl ⟨fits_of_nibble hf ‹_›, rfl, nofun⟩

theorem decodeFamily8_known {cfg : Config} {w : Word} (hf : family w = 0x8#4) :
    Known cfg w (decodeFamily8 w) ∨ isUnknownWord cfg w = true := by
  unfold decodeFamily8
  split
  case h_10 =>
    right
    rw [isUnknownWord_eq, hf]
    change List.contains _ (fieldN w) = true
    generalize fieldN w = n at *
    revert n
    decide
  all_goals exact .inl ⟨fits_of_nibble hf ‹_›, rfl, nofun⟩

theorem decodeFamilyC_known {cfg : Config} {w : Word} (hf : family w = 0xC#4) :
    Known cfg w (decodeFamilyC cfg w) ∨ isUnknownWord cfg w = true := by
  cases hm : cfg.cxnnMode with
  | random =>
    rw [decodeFamilyC, hm]
    exact .inl ⟨fits_of_family hf, by rw [Instr.wellFormed, hm]; rfl, nofun⟩
  | noop => right; rw [isUnknownWord_eq, hf, hm]; rfl

theorem decodeFamilyE_known {cfg : Config} {w : Word} (hf : family w = 0xE#4) :
    Known cfg w (decodeFamilyE w) ∨ isUnknownWord cfg w = true := by
  unfold decodeFamilyE
  split
  case h_3 => right; rw [isUnknownWord_eq, hf]; simp_all
  all_goals exact .inl ⟨fits_of_nibble hf ‹_›, rfl, nofun⟩

theorem decodeFamilyF_known {cfg : Config} {w : Word} (hf : family w = 0xF#4) :
    Known cfg w (decodeFamilyF w) ∨ isUnknownWord cfg w = true := by
  unfold decodeFamilyF
  split
  case h_10 => right; rw [isUnknownWord_eq, hf]; simp_all
  all_goals exact .inl ⟨fits_of_byte hf ‹_›, rfl, nofun⟩

/-- Every word is of R79's list, or decodes to an instruction of a row it fits. -/
theorem decode_known (cfg : Config) (w : Word) : Known cfg w (decode cfg w) ∨ isUnknownWord cfg w = true := by
  unfold decode
  split
  case h_1 hf => exact decodeFamily0_known hf
  case h_9 hf => exact decodeFamily8_known hf
  case h_13 hf => exact decodeFamilyC_known hf
  case h_15 hf => exact decodeFamilyE_known hf
  case h_16 =>
    have hf : family w = 0xF#4 := by
      generalize family w = f at *
      revert f
      decide
    exact decodeFamilyF_known hf
  all_goals exact .inl ⟨fits_of_family ‹_›, rfl, nofun⟩

/-- An unknown opcode is the pc advance and nothing else (R79). -/
theorem exec_unknown (w : Word) (s : State) : exec (.unknown w) s = .next { s with pc := s.pc + 2 } := rfl

/-- Settles O3: a word outside R79's list fits the row it decodes to, and the rows are pairwise incompatible. -/
theorem everyWordIsInstructionOrUnknown : Obligations.EveryWordIsInstructionOrUnknown := by
  intro cfg w
  refine ⟨fun h => ⟨decode_of_isUnknownWord h, exec_unknown w⟩, fun h => ?known⟩
  case known =>
    obtain ⟨hfits, hwf, hne⟩ : Known cfg w (decode cfg w) :=
      (decode_known cfg w).resolve_right (by rw [h]; exact nofun)
    exact ⟨opcodeMap_filter_fits (row_mem_opcodeMap hne) hfits, hwf, hne w⟩

/-- Settles O1, by running the decoder on the words. -/
theorem specWordsDecode : Obligations.SpecWordsDecode := by
  unfold Obligations.SpecWordsDecode
  decide

end Sys2Proof.Machine
end

section
/-! SUPPORT. All an instruction can answer, said once (10_state.md R20 to R34, 60_exceptions.md R241, R242): the fault it
raises and for what cause, or the pieces of state it writes. Every frame, cause and invariant below is read off this list. -/

namespace Sys2Proof.Machine

/-! ### What an instruction raises -/

/-- The faults an instruction raises, with the cause the state shows (R241). -/
inductive Raises (s : State) : Instr → Raise → Prop
  | stackOverflow (nnn : BitVec 12) (h : s.sp = 16) : Raises s (.call nnn) ⟨.stackOverflow, 0⟩
  | stackUnderflow (h : s.sp = 0) : Raises s .ret ⟨.stackUnderflow, 0⟩
  | memOutOfRange {i : Instr} {n : Nat} (hi : dataBytes i = some n) (hn : 0 < n) (h : memSize < s.indexAddr + n) :
      Raises s i ⟨.memOutOfRange, BitVec.ofNat 16 (max s.indexAddr memSize)⟩
  | keyOutOfRange {i : Instr} {x : RegIx} (hi : i = .skp x ∨ i = .sknp x) (h : 0x0F < (s.getV x).toNat) :
      Raises s i ⟨.keyOutOfRange, (s.getV x).setWidth 16⟩

/-- No instruction raises code 0, which stands for no fault. -/
theorem Raises.code_ne_none {s : State} {i : Instr} {r : Raise} (h : Raises s i r) : r.code ≠ .none := by
  cases h <;> exact nofun

/-! ### Where the pc can go -/

/-- The addresses an instruction can leave in pc: its own (a fault, or a wait for a key), the next ones, a target within
NNN, NNN plus a byte, or a return address. -/
inductive NextPc (s : State) : Word → Prop
  | stay : NextPc s s.pc
  | advance : NextPc s (s.pc + 2)
  | skip : NextPc s (s.pc + 2 + 2)
  | jump (nnn : BitVec 12) : NextPc s (nnn.setWidth 16)
  | jumpPlus (nnn : BitVec 12) (b : Byte) : NextPc s (nnn.setWidth 16 + b.setWidth 16)
  | popped (k : Fin 16) : NextPc s s.stack[k]

/-! ### What an instruction writes -/

/-- The instructions that write I (R24). -/
def WritesI (i : Instr) : Prop := (∃ nnn, i = .ldI nnn) ∨ (∃ x, i = .addI x) ∨ ∃ x, i = .ldF x

/-- All an instruction `i` can answer in state `s`: a fault, or a change of one of these groups of pieces alone. -/
inductive Answers (s : State) (i : Instr) : State → Prop
  | fault {r : Raise} (h : Raises s i r) : Answers s i (raiseFault s r)
  | control {a : Word} (h : NextPc s a) : Answers s i { s with pc := a }
  | call {nnn : BitVec 12} (k : Fin 16) (hi : i = .call nnn) :
      Answers s i { s with stack := s.stack.set k.val (s.pc + 2), sp := k.succ, pc := nnn.setWidth 16 }
  | ret (k : Fin 16) (hi : i = .ret) : Answers s i { s with sp := k.castSucc, pc := s.stack[k] }
  | registers {v : Vector Byte 16} (h : ∀ q : RegIx, v[q] ≠ s.v[q] → mayWriteV q i = true) :
      Answers s i { s with v := v, pc := s.pc + 2 }
  | display {f : Framebuffer} {v : Vector Byte 16} (h : ∀ q : RegIx, v[q] ≠ s.v[q] → mayWriteV q i = true) :
      Answers s i { s with fb := f, v := v, pc := s.pc + 2 }
  | index {w : Word} (hi : WritesI i) : Answers s i { s with i := w, pc := s.pc + 2 }
  | delayTimer {d : Byte} (hi : ∃ x, i = .ldDtVx x) : Answers s i { s with dt := d, pc := s.pc + 2 }
  | soundTimer {d : Byte} (hi : ∃ x, i = .ldStVx x) : Answers s i { s with st := d, pc := s.pc + 2 }
  | memory {bs : List Byte} (hr : s.indexAddr + bs.length ≤ memSize) :
      Answers s i (s.advance.setBytes s.indexAddr bs)

theorem Answers.skipIf {s : State} {i : Instr} (c : Bool) : Answers s i (s.advance.skipIf c) := by
  cases c
  · exact .control .advance
  · exact .control .skip

theorem Answers.setV {s : State} {i : Instr} {x : RegIx} (hi : mayWriteV x i = true) (b : Byte) :
    Answers s i (s.advance.setV x b) := by
  refine .registers fun q hq => ?_
  by_cases hx : q = x
  · exact hx ▸ hi
  · exact absurd (s.advance.getV_setV_other b hx) hq

theorem Answers.commit {s : State} {i : Instr} {x : RegIx} (hx : mayWriteV x i = true) (hf : mayWriteV vf i = true)
    (f : Byte → Byte → Bool) (r : Byte → Byte → Byte) (y : RegIx) :
    Answers s i (Machine.commit f r x y s.advance) := by
  rw [commit_eq]
  refine .registers fun q hq => ?_
  by_cases h : q = x ∨ q = vf
  · exact h.elim (· ▸ hx) (· ▸ hf)
  · rw [not_or] at h
    exact absurd (commit_getV_other (s := s.advance) h.1 h.2) hq

theorem Answers.draw {s : State} {x y : RegIx} {n : BitVec 4} (f : Framebuffer) (b : Byte) :
    Answers s (.drw x y n) ({ s.advance with fb := f }.setV vf b) := by
  refine .display fun q hq => ?_
  by_cases hx : q = vf
  · exact beq_iff_eq.mpr hx
  · exact absurd (State.getV_setV_other { s.advance with fb := f } b hx) hq

theorem Answers.loadRegs {s : State} {x : RegIx} {bs : List Byte} (hl : bs.length = x.val + 1) :
    Answers s (.loadRegs x) (s.advance.setRegsFrom 0 bs) := by
  rw [State.setRegsFrom_eq]
  refine .registers fun q hq => ?_
  by_cases hx : q ≤ x
  · exact decide_eq_true hx
  · have hout : ¬ (0 ≤ q.val ∧ q.val < 0 + bs.length) := by have : x.val < q.val := Nat.lt_of_not_le hx; omega
    exact absurd ((s.advance.getV_setRegsFrom bs 0 q).trans (if_neg hout)) hq

/-- Every answer of every instruction is on the list. -/
theorem exec_answers {i : Instr} {s t : State} (h : exec i s = .next t) : Answers s i t := by
  have hmem : ∀ {n : Nat}, dataBytes i = some n → ¬ (n = 0 ∨ s.indexAddr + n ≤ memSize) →
      Answers s i (raiseFault s ⟨.memOutOfRange, BitVec.ofNat 16 (max s.indexAddr memSize)⟩) :=
    fun hi hn => .fault (.memOutOfRange hi (by omega) (by omega))
  cases i with
  | ret =>
    rw [exec_ret] at h
    split at h <;> cases h
    · exact .fault (.stackUnderflow (Fin.ext ‹_›))
    · exact .ret ⟨s.sp.val - 1, by omega⟩ rfl
  | call nnn =>
    by_cases hsp : s.sp.val < 16
    · rw [exec_call_notFull nnn (k := ⟨s.sp.val, hsp⟩) rfl] at h
      cases h
      exact .call _ rfl
    · have hfull : s.sp = 16 := Fin.ext (Nat.le_antisymm (Nat.le_of_lt_succ s.sp.isLt) (Nat.not_lt.mp hsp))
      rw [exec_call_full nnn hfull] at h
      cases h
      exact .fault (.stackOverflow nnn hfull)
  | skp x =>
    rw [exec_skp] at h
    split at h <;> cases h
    · exact .skipIf _
    · exact .fault (.keyOutOfRange (.inl rfl) (Nat.not_lt.mp ‹_›))
  | sknp x =>
    rw [exec_sknp] at h
    split at h <;> cases h
    · exact .skipIf _
    · exact .fault (.keyOutOfRange (.inr rfl) (Nat.not_lt.mp ‹_›))
  | drw x y n =>
    rw [exec_drw] at h
    split at h <;> cases h
    · exact .draw _ _
    · exact hmem rfl ‹_›
  | ldB x =>
    rw [exec_ldB] at h
    split at h <;> cases h
    · exact .memory (bs := bcdDigits (s.getV x)) ‹_›
    · exact hmem rfl (by omega)
  | storeRegs x =>
    rw [exec_storeRegs] at h
    split at h <;> cases h
    · exact .memory (by rwa [State.regsTo_length])
    · exact hmem rfl (by omega)
  | loadRegs x =>
    rw [exec_loadRegs] at h
    split at h <;> cases h
    · exact .loadRegs (s.bytesAt_length _ _)
    · exact hmem rfl (by omega)
  | rnd x nn =>
    rw [exec_rnd] at h
    split at h <;> cases h
    · exact .setV (by simp [mayWriteV]) _
    · exact .control .advance
  | ldVxK x =>
    rw [exec_ldVxK] at h
    split at h <;> cases h
    · exact .setV (by simp [mayWriteV]) _
    · exact .control .stay
  | addReg x _ | subReg x _ | subnReg x _ | shr x | shl x =>
    cases h
    exact .commit (by simp [mayWriteV]) (by simp [mayWriteV]) _ _ _
  | ldImm x _ | addImm x _ | ldReg x _ | orReg x _ | andReg x _ | xorReg x _ | ldVxDt x =>
    cases h
    exact .setV (by simp [mayWriteV]) _
  | seImm _ _ | sneImm _ _ | seReg _ _ | sneReg _ _ => cases h; exact .skipIf _
  | cls => cases h; exact .display fun q hq => absurd rfl hq
  | jp nnn => cases h; exact .control (.jump nnn)
  | jpV0 nnn => cases h; exact .control (.jumpPlus nnn _)
  | ldI nnn => cases h; exact .index (.inl ⟨nnn, rfl⟩)
  | addI x => cases h; exact .index (.inr (.inl ⟨x, rfl⟩))
  | ldF x => cases h; exact .index (.inr (.inr ⟨x, rfl⟩))
  | ldDtVx x => cases h; exact .delayTimer ⟨x, rfl⟩
  | ldStVx x => cases h; exact .soundTimer ⟨x, rfl⟩
  | unknown w => cases h; exact .control .advance

/-! ### What an answer keeps -/

/-- An instruction that raises nothing leaves FAULT. -/
theorem Answers.fault_eq {s t : State} {i : Instr} (h : Answers s i t) :
    t.fault = s.fault ∨ ∃ r, Raises s i r ∧ t = raiseFault s r := by
  cases h with
  | fault hr => exact .inr ⟨_, hr, rfl⟩
  | memory _ => exact .inl (State.setBytes_fault _ _ _)
  | _ => exact .inl rfl

theorem Answers.nextPc {s t : State} {i : Instr} (h : Answers s i t) : NextPc s t.pc := by
  cases h with
  | fault _ => exact .stay
  | control hpc => exact hpc
  | @call nnn k _ => exact .jump nnn
  | ret k _ => exact .popped k
  | memory _ => rw [State.setBytes_pc]; exact .advance
  | _ => exact .advance

theorem Answers.mayWriteV {s t : State} {i : Instr} {q : RegIx} (h : Answers s i t) (hq : t.getV q ≠ s.getV q) :
    mayWriteV q i = true := by
  cases h with
  | registers hv => exact hv q hq
  | display hv => exact hv q hq
  | memory _ => rw [State.getV, State.setBytes_v] at hq; exact absurd rfl hq
  | _ => exact absurd rfl hq

theorem Answers.i_eq {s t : State} {i : Instr} (h : Answers s i t) (hi : ¬ WritesI i) : t.i = s.i := by
  cases h with
  | index hw => exact absurd hw hi
  | memory _ => exact State.setBytes_i _ _ _
  | _ => rfl

theorem Answers.sp_eq {s t : State} {i : Instr} (h : Answers s i t) (hret : i ≠ .ret) (hcall : ∀ nnn, i ≠ .call nnn) :
    t.sp = s.sp := by
  cases h with
  | @call nnn _ hi => exact absurd hi (hcall nnn)
  | ret _ hi => exact absurd hi hret
  | memory _ => exact State.setBytes_sp _ _ _
  | _ => rfl

theorem Answers.dt_eq {s t : State} {i : Instr} (h : Answers s i t) (hi : ∀ x, i ≠ .ldDtVx x) : t.dt = s.dt := by
  cases h with
  | delayTimer hx => exact absurd hx.choose_spec (hi _)
  | memory _ => exact State.setBytes_dt _ _ _
  | _ => rfl

theorem Answers.st_eq {s t : State} {i : Instr} (h : Answers s i t) (hi : ∀ x, i ≠ .ldStVx x) : t.st = s.st := by
  cases h with
  | soundTimer hx => exact absurd hx.choose_spec (hi _)
  | memory _ => exact State.setBytes_st _ _ _
  | _ => rfl

/-- A store writes inside memory, and no other instruction writes there. -/
theorem Answers.memWf {s t : State} {i : Instr} (h : Answers s i t) (hs : s.memWf) : t.memWf := by
  cases h with
  | @memory bs hr => exact State.setBytes_memWf bs (s := s.advance) hs hr
  | _ => exact hs

/-- A slot keeps its value, or CALL pushed the address after itself there. -/
theorem Answers.slot {s t : State} {i : Instr} (h : Answers s i t) (j : Fin 16) :
    t.stack[j] = s.stack[j] ∨ t.stack[j] = s.pc + 2 := by
  cases h with
  | call k _ =>
    have hset := getElem_stack_set s.stack k j (s.pc + 2)
    by_cases hj : j = k
    · exact .inr (hset.trans (if_pos hj))
    · exact .inl (hset.trans (if_neg hj))
  | memory _ => left; simp only [State.setBytes_stack, State.advance_stack]
  | _ => exact .inl rfl

/-- No instruction changes the inputs, the parameters or the host's bookkeeping (R33, R34, R273). -/
theorem exec_inputs {i : Instr} {s t : State} (h : exec i s = .next t) :
    t.keys = s.keys ∧ t.cfg = s.cfg ∧ t.rndIn = s.rndIn ∧ t.draws = s.draws ∧ t.loaded = s.loaded ∧
      t.ticked = s.ticked := by
  obtain ⟨t', ht', hk⟩ := exec_cases i s
  obtain rfl : t' = t := Host.Outcome.next.inj (ht' ▸ h)
  rcases hk with hk | ⟨r, -, rfl⟩
  · exact ⟨hk.keys, hk.cfg, hk.rndIn, hk.draws, hk.loaded, hk.ticked⟩
  · exact ⟨rfl, rfl, rfl, rfl, rfl, rfl⟩

/-- Settles O39, by the registers of each answer. -/
theorem registersChangeOnlyAsDestinations : Obligations.RegistersChangeOnlyAsDestinations :=
  fun _ _ _ _ h hq => (exec_answers h).mayWriteV hq

/-- Settles O40: each register is kept by every instruction but its writers. -/
theorem controlRegistersHaveTheirWriters : Obligations.ControlRegistersHaveTheirWriters := by
  intro i s t h
  have ha := exec_answers h
  refine ⟨fun hne => ?i, fun hne => ?sp, fun hne => ?dt, fun hne => ?st, exec_inputs h⟩
  case i => by_contra hw; exact hne (ha.i_eq hw)
  case sp => by_contra hw; exact hne (ha.sp_eq (fun e => hw (.inl e)) fun nnn e => hw (.inr ⟨nnn, e⟩))
  case dt => by_contra hw; exact hne (ha.dt_eq fun x e => hw ⟨x, e⟩)
  case st => by_contra hw; exact hne (ha.st_eq fun x e => hw ⟨x, e⟩)

end Sys2Proof.Machine
end

section
/-! SUPPORT. Faults and the tick (60_exceptions.md R241 to R243, 30_encoding.md R81): what a fault restores, what a halted
core does, how a tick ends, and the three invariants of a step. -/

namespace Sys2Proof.Machine

/-! ### Taken faults -/

/-- An instruction that answers a new fault took it for its own cause. -/
theorem exec_raises {i : Instr} {s t : State} (hs : s.fault.code = .none) (h : exec i s = .next t)
    (ht : t.fault.code ≠ .none) : ∃ r, Raises s i r ∧ t = raiseFault s r := by
  refine (exec_answers h).fault_eq.resolve_left fun he => ht ?_
  rw [he, hs]

/-- Settles O11, by the cause of each fault an instruction raises. -/
theorem faultsArePreciseAndCaused : Obligations.FaultsArePreciseAndCaused := by
  intro i s t hs h ht
  obtain ⟨r, hr, rfl⟩ := exec_raises hs h ht
  refine ⟨rfl, ?_⟩
  cases hr with
  | stackOverflow nnn hsp => exact .inl ⟨rfl, ⟨nnn, rfl⟩, hsp, rfl⟩
  | stackUnderflow hsp => exact .inr (.inl ⟨rfl, rfl, hsp, rfl⟩)
  | @memOutOfRange _ n hi hn hrange => exact .inr (.inr (.inl ⟨rfl, n, hi, hn, hrange, rfl⟩))
  | @keyOutOfRange _ x hi hx =>
    exact .inr (.inr (.inr ⟨rfl, x, hi, hx, BitVec.toNat_setWidth_of_le (by decide)⟩))

/-! ### A halted core, and that every tick answers -/

/-- A tick of a halted core changes nothing (R243). -/
theorem step_halted {s : State} (h : s.fault.code ≠ .none) : step s = .next s := by
  rw [step, if_pos (s.halted_iff.mpr h)]

theorem tick_halted {s : State} (h : s.fault.code ≠ .none) : s.tick = s := by
  rw [State.tick, step_halted h]

/-- Settles O8, by induction on the number of ticks. -/
theorem haltedCoreNeverChanges : Obligations.HaltedCoreNeverChanges := by
  intro s k h
  refine ⟨step_halted h, ?_⟩
  induction k with
  | zero => rfl
  | succ k ih => rw [State.ticks, tick_halted h, ih]

/-- Settles O9, by what an instruction can do: complete or take a fault. -/
theorem everyTickAnswersNext : Obligations.EveryTickAnswersNext :=
  ⟨fun i s => (exec_cases i s).imp fun _ ht => ht.1, fun s => ⟨s.tick, step_eq_tick s⟩⟩

/-! ### How a tick ends -/

/-- A completed tick counts both timers down, uses up the draw and records the tick (R223, R273). -/
theorem endTick_eq_of_completed {t : State} (h : t.fault.code = .none) :
    endTick t = { t with
      dt := BitVec.ofNat 8 (t.dt.toNat - 1), st := BitVec.ofNat 8 (t.st.toNat - 1)
      rndIn := none, draws := t.draws + 1, ticked := true } := by
  rw [endTick_completed h, ofNat_eq_countdown, ofNat_eq_countdown]; rfl

/-- A faulted tick leaves the timers as they are (R242). -/
theorem endTick_eq_of_faulted {t : State} (h : t.fault.code ≠ .none) :
    endTick t = { t with rndIn := none, draws := t.draws + 1, ticked := true } :=
  endTick_faulted h

/-- The end of a tick changes the timers and the bookkeeping of inputs alone. -/
theorem endTick_eq (t : State) :
    endTick t = { t with
      dt := (endTick t).dt, st := (endTick t).st, rndIn := none, draws := t.draws + 1, ticked := true } := by
  by_cases h : t.fault.code = .none
  · rw [endTick_completed h]; rfl
  · rw [endTick_faulted h]; rfl

@[simp] theorem endTick_v (t : State) : (endTick t).v = t.v := by rw [endTick_eq]
@[simp] theorem endTick_i (t : State) : (endTick t).i = t.i := by rw [endTick_eq]
@[simp] theorem endTick_pc (t : State) : (endTick t).pc = t.pc := by rw [endTick_eq]
@[simp] theorem endTick_stack (t : State) : (endTick t).stack = t.stack := by rw [endTick_eq]
@[simp] theorem endTick_sp (t : State) : (endTick t).sp = t.sp := by rw [endTick_eq]
@[simp] theorem endTick_mem (t : State) : (endTick t).mem = t.mem := by rw [endTick_eq]
@[simp] theorem endTick_cfg (t : State) : (endTick t).cfg = t.cfg := by rw [endTick_eq]

/-- The next instruction of a core whose fetch is in range. -/
theorem State.nextInstr_inRange {s : State} (h : s.pc.toNat ≤ 0xFFE) :
    s.nextInstr = some (decode s.cfg (wordOfBytes (s.byteAt s.pc.toNat) (s.byteAt (s.pc.toNat + 1)))) := by
  rw [State.nextInstr, fetch_inRange h]

/-- Settles O6: the big-endian word decodes to the next instruction, and the step ends its tick. -/
theorem stepRunsDecodedInstruction : Obligations.StepRunsDecodedInstruction := by
  intro s t i hs hpc hdec h
  rw [ofNat_eq_wordOfBytes] at hdec
  have hnext : s.nextInstr = some i := by rw [State.nextInstr_inRange hpc, hdec]
  rw [step_nextInstr hs hnext h]
  by_cases ht : t.fault.code = .none
  · simp only [ht, if_true, endTick_eq_of_completed]
  · simp only [ht, if_false, endTick_eq_of_faulted, not_false_eq_true, ne_eq]

/-- Settles O7: the faulted fetch is taken as a fault, and the tick of a fault moves only the bookkeeping. -/
theorem fetchOutOfRangeFaults : Obligations.FetchOutOfRangeFaults := by
  intro s hs hpc
  have hfault : (raiseFault s ⟨.fetchOutOfRange, s.pc⟩).fault.code ≠ .none := nofun
  rw [step, if_neg (by rw [State.halted_iff]; exact fun h => h hs), fetch_outOfRange hpc]
  exact congrArg Host.Outcome.next (endTick_eq_of_faulted hfault)

/-- All a tick that ends with a new fault can do: take the fault, raised by the fetch or by the instruction (R242). -/
theorem step_faulted {s u : State} (hs : s.fault.code = .none) (h : step s = .next u) (hu : u.fault.code ≠ .none) :
    ∃ r, r.code ≠ .none ∧ u = useInputs (raiseFault s r) := by
  rcases step_cases h with ⟨hf, -⟩ | ⟨-, -, rfl⟩ | ⟨-, -, t, ht, rfl⟩
  · exact absurd hs hf
  · exact ⟨⟨.fetchOutOfRange, s.pc⟩, nofun, rfl⟩
  · rw [endTick_fault] at hu
    obtain ⟨r, hr, rfl⟩ := exec_raises hs ht hu
    exact ⟨r, hr.code_ne_none, endTick_faulted hu⟩

/-- FAULT.code other than 0 reads as 1 to 5 (R241). -/
theorem FaultCode.toByte_bounds {c : FaultCode} (h : c ≠ .none) : 1 ≤ c.toByte.toNat ∧ c.toByte.toNat ≤ 5 := by
  cases c with
  | none => exact absurd rfl h
  | _ => decide

/-- What the host reads from FAULT, by its code. -/
theorem hostReadFault_of_code {u : State} {c : FaultCode} (h : u.fault.code = c) :
    hostReadFault u = (c.toByte, u.fault.pc, u.fault.info) := by
  rw [hostReadFault, h]

/-- Settles O12: a faulted tick takes one raise, and the host reads the code's number. -/
theorem faultTickKeepsAllElse : Obligations.FaultTickKeepsAllElse := by
  refine ⟨fun s u hs h hu => ?_, fun u => ⟨hostReadFault_of_code, hostReadFault_of_code, hostReadFault_of_code,
    hostReadFault_of_code, hostReadFault_of_code, hostReadFault_of_code⟩⟩
  obtain ⟨r, hr, rfl⟩ := step_faulted hs h hu
  exact ⟨rfl, rfl, FaultCode.toByte_bounds hr⟩

/-! ### FAULT agrees with the state -/

/-- Taking a fault that the state shows the cause of leaves FAULT in agreement with the state. -/
theorem Raises.faultConsistent {s : State} {i : Instr} {r : Raise} (h : Raises s i r) :
    (useInputs (raiseFault s r)).faultConsistent := by
  cases h with
  | stackOverflow nnn hsp => exact ⟨rfl, rfl, hsp⟩
  | stackUnderflow hsp => exact ⟨rfl, rfl, hsp⟩
  | memOutOfRange hi hn hr =>
    refine ⟨rfl, ?_⟩
    have hlt : max s.i.toNat memSize < 2 ^ 16 := max_lt s.i.isLt (by decide)
    exact BitVec.toNat_ofNat .. ▸ Nat.mod_eq_of_lt hlt
  | @keyOutOfRange _ x hi hx =>
    have hinfo : ((s.getV x).setWidth 16).toNat = (s.getV x).toNat := BitVec.toNat_setWidth_of_le (by decide)
    refine ⟨rfl, hinfo ▸ hx, hinfo ▸ ?_⟩
    exact Nat.le_of_lt_succ (s.getV x).isLt

/-- With no fault, agreement says that FAULT is (0, 0, 0). -/
theorem State.faultConsistent_iff_of_none {s : State} (h : s.fault.code = .none) :
    s.faultConsistent ↔ s.fault.pc = 0 ∧ s.fault.info = 0 := by
  rw [State.faultConsistent, h]

/-- Settles O46, by the cases of a step: a halted tick, a faulted fetch, or an instruction that completes or raises. -/
theorem stepKeepsFaultConsistent : Obligations.StepKeepsFaultConsistent := by
  intro s u hs h
  rcases step_cases h with ⟨-, rfl⟩ | ⟨-, hpc, rfl⟩ | ⟨hf, -, t, ht, rfl⟩
  · exact hs
  · exact ⟨rfl, rfl, hpc⟩
  · rcases (exec_answers ht).fault_eq with hk | ⟨r, hr, rfl⟩
    · have hkeep : (endTick t).fault = s.fault := by rw [endTick_fault, hk]
      rw [State.faultConsistent_iff_of_none hf] at hs
      rwa [State.faultConsistent_iff_of_none (by rw [hkeep, hf]), hkeep]
    · rw [endTick_faulted hr.code_ne_none]
      exact hr.faultConsistent

/-! ### Memory stays canonical -/

/-- Settles O45: an instruction keeps the canonical form, and the rest of a step does not reach memory. -/
theorem stepKeepsMemoryCanonical : Obligations.StepKeepsMemoryCanonical := by
  intro s u hs h
  rcases step_cases h with ⟨-, rfl⟩ | ⟨-, -, rfl⟩ | ⟨-, -, t, ht, rfl⟩
  · exact hs
  · exact hs
  · rw [State.memWf, endTick_mem, endTick_cfg]
    exact (exec_answers ht).memWf hs

/-! ### The pc stays bounded -/

/-- From a fetched instruction, with the return addresses bounded, no pc above 0x10FE is reached (D9). -/
theorem NextPc.bounded {s : State} (hs : s.pcBounded) (hpc : s.pc.toNat ≤ 0x0FFE) {a : Word} (h : NextPc s a) :
    a.toNat ≤ 0x10FE := by
  obtain ⟨hle, hstack⟩ := hs
  cases h with
  | stay => exact hle
  | advance => bv_omega
  | skip => bv_omega
  | jump nnn => have := nnn.isLt; bv_omega
  | jumpPlus nnn b => have := nnn.isLt; have := b.isLt; bv_omega
  | popped k => exact (hstack k).trans (by decide)

/-- A fetched instruction leaves every return address at most 0x1000 (D9). -/
theorem Answers.slot_bounded {s t : State} {i : Instr} (h : Answers s i t) (hs : s.pcBounded)
    (hpc : s.pc.toNat ≤ 0x0FFE) (k : Fin 16) : (t.stack[k]).toNat ≤ 0x1000 := by
  rcases h.slot k with hk | hk
  · rw [hk]; exact hs.2 k
  · rw [hk]; bv_omega

/-- Settles O47, by where an instruction can leave pc and what it can leave on the stack. -/
theorem stepKeepsPcBounded : Obligations.StepKeepsPcBounded := by
  intro s u hs h
  rcases step_cases h with ⟨-, rfl⟩ | ⟨-, -, rfl⟩ | ⟨-, hpc, t, ht, rfl⟩
  · exact hs
  · exact hs
  · rw [State.pcBounded, endTick_pc, endTick_stack]
    exact ⟨(exec_answers ht).nextPc.bounded hs hpc, (exec_answers ht).slot_bounded hs hpc⟩

end Sys2Proof.Machine
end

section
/-! SUPPORT. Control transfers (40_control_flow.md R101, R102, R108), unknown opcodes (30_encoding.md R79) and the parked
core (70_reset_and_hazards.md R279): one tick, the fetch after it, and any number of ticks. -/

namespace Sys2Proof.Machine

/-! ### Ticks -/

/-- A tick of a core that is not halted is its next instruction and the end of the tick (R81). -/
theorem tick_nextInstr {s t : State} {i : Instr} (hs : s.fault.code = .none) (hi : s.nextInstr = some i)
    (h : exec i s = .next t) : s.tick = endTick t := by
  rw [State.tick, step_nextInstr hs hi h]

/-- An instruction that leaves pc above 0xFFE makes the next tick fault at its fetch (D8). -/
theorem fault_ticks_two {s t : State} {i : Instr} (hs : s.fault.code = .none) (hi : s.nextInstr = some i)
    (h : exec i s = .next t) (ht : t.fault.code = .none) (hpc : 0x0FFE < t.pc.toNat) :
    (State.ticks 2 s).fault = ⟨.fetchOutOfRange, t.pc, t.pc⟩ := by
  have hfetch := fetchOutOfRangeFaults (endTick t) (by rw [endTick_fault, ht]) (by rwa [endTick_pc])
  calc (State.ticks 2 s).fault = (endTick t).tick.fault := by
        rw [State.ticks, State.ticks, State.ticks, tick_nextInstr hs hi h]
    _ = ⟨.fetchOutOfRange, t.pc, t.pc⟩ := by rw [State.tick, hfetch, endTick_pc]

/-! ### RET (R101) -/

/-- Low nibble E in family 0 is RET, whatever bits 11:4 hold. -/
theorem decode_ret_of_match (cfg : Config) {w : Word} (h : w &&& 0xF00F = 0x000E) : decode cfg w = .ret := by
  obtain ⟨hf, hn⟩ : family w = 0x0#4 ∧ fieldN w = 0xE#4 := fields_of_match_nibble h
  simp only [decode, hf, decodeFamily0, hn]

/-- RET with k + 1 slots occupied takes the address in slot k. -/
theorem exec_ret_notEmpty {s : State} {k : Fin 16} (hk : s.sp.val = k.val + 1) :
    exec .ret s = .next { s with sp := k.castSucc, pc := s.stack[k] } := by
  have hne : ¬ s.sp.val = 0 := by omega
  have hslot : s.sp.val - 1 = k.val := by omega
  rw [exec_ret, dif_neg hne]
  simp only [hslot]; rfl

theorem exec_ret_empty {s : State} (hs : s.sp = 0) : exec .ret s = .next (raiseFault s ⟨.stackUnderflow, 0⟩) := by
  rw [exec_ret, dif_pos (by rw [hs]; rfl)]

/-- Settles O15, by the two cases of RET and the fetch after it. -/
theorem retPopsReturnAddress : Obligations.RetPopsReturnAddress := by
  refine ⟨fun cfg _ h => decode_ret_of_match cfg h,
    fun s k hk => ⟨_, exec_ret_notEmpty hk, rfl, rfl, rfl⟩, fun _ => exec_ret_empty, fun s k hs hi hk hpc => ?_⟩
  exact fault_ticks_two hs hi (exec_ret_notEmpty hk) hs hpc

/-! ### JP (R102) and the parked core (R279) -/

theorem decode_jp_of_match (cfg : Config) {w : Word} (h : w &&& 0xF000 = 0x1000) : decode cfg w = .jp (opNNN w) := by
  have hf : family w = 0x1#4 := family_of_match h
  rw [decode, hf, ← fieldNNN_eq_opNNN]; rfl

theorem exec_jp (nnn : BitVec 12) (s : State) : exec (.jp nnn) s = .next { s with pc := nnn.setWidth 16 } := rfl

/-- A jump to its own address leaves the state of the start of the tick. -/
theorem exec_jp_self {s : State} {nnn : BitVec 12} (h : nnn.toNat = s.pc.toNat) : exec (.jp nnn) s = .next s := by
  have hpc : nnn.setWidth 16 = s.pc := BitVec.eq_of_toNat_eq (by rw [BitVec.toNat_setWidth_of_le (by decide), h])
  rw [exec_jp, hpc]

/-- Settles O16, by the jump's target, the fetch after a jump to 0xFFF and the tick of a jump to itself. -/
theorem jpSetsPc : Obligations.JpSetsPc := by
  refine ⟨fun cfg _ h => decode_jp_of_match cfg h,
    fun s nnn => ⟨_, exec_jp nnn s, BitVec.toNat_setWidth_of_le (by decide), rfl⟩, fun s hs hi => ?far,
    fun s nnn hs hi hpc => ?self⟩
  case far => exact fault_ticks_two hs hi (exec_jp 0xFFF s) hs (by decide : 0x0FFE < 0x0FFF)
  case self => rw [step_nextInstr hs hi (exec_jp_self hpc), endTick_eq_of_completed hs]

/-- Counting down k + 1 times is counting down once more. -/
theorem ofNat_sub_succ (t : Byte) (k : Nat) :
    BitVec.ofNat 8 ((BitVec.ofNat 8 (t.toNat - k)).toNat - 1) = BitVec.ofNat 8 (t.toNat - (k + 1)) := by
  have hlt : t.toNat - k < 2 ^ 8 := (Nat.sub_le _ _).trans_lt t.isLt
  rw [BitVec.toNat_ofNat, Nat.mod_eq_of_lt hlt, Nat.sub_sub]

/-- What `k` ticks of a core parked in state `s` leave, up to the bookkeeping of inputs: the timers run down. -/
def State.parkedAfter (s : State) (k : Nat) (rndIn : Option Byte) (draws : Nat) (ticked : Bool) : State :=
  { s with
    dt := BitVec.ofNat 8 (s.dt.toNat - k), st := BitVec.ofNat 8 (s.st.toNat - k)
    rndIn := rndIn, draws := draws, ticked := ticked }

theorem State.tick_parkedAfter {s : State} {nnn : BitVec 12} (hs : s.fault.code = .none)
    (hi : s.nextInstr = some (.jp nnn)) (hpc : nnn.toNat = s.pc.toNat) (k : Nat) (r : Option Byte) (d : Nat) (b : Bool) :
    (s.parkedAfter k r d b).tick = s.parkedAfter (k + 1) none (d + 1) true := by
  rw [tick_nextInstr (s := s.parkedAfter k r d b) hs hi (exec_jp_self hpc), endTick_eq_of_completed (by exact hs)]
  simp only [State.parkedAfter, ofNat_sub_succ]

/-- A parked core is in the state it was parked in, up to the timers and the bookkeeping, after any number of ticks. -/
theorem State.ticks_parked {s : State} {nnn : BitVec 12} (hs : s.fault.code = .none)
    (hi : s.nextInstr = some (.jp nnn)) (hpc : nnn.toNat = s.pc.toNat) (k : Nat) :
    ∃ r d b, State.ticks k s = s.parkedAfter k r d b := by
  induction k with
  | zero => exact ⟨s.rndIn, s.draws, s.ticked, by simp [State.ticks, State.parkedAfter]⟩
  | succ k ih =>
    obtain ⟨r, d, b, hk⟩ := ih
    exact ⟨none, d + 1, true, by rw [State.ticks_succ_eq_tick, hk, State.tick_parkedAfter hs hi hpc]⟩

/-- Settles O52, by the state after any number of ticks: the jump to itself is still the next instruction. -/
theorem parkedCoreStaysParked : Obligations.ParkedCoreStaysParked := by
  rintro s k hs ⟨nnn, hi, hpc⟩
  obtain ⟨r, d, b, hk⟩ := State.ticks_parked hs hi hpc k
  rw [hk]
  exact ⟨⟨nnn, hi, hpc⟩, rfl⟩

/-! ### JP V0 (R108) -/

theorem decode_jpV0_of_match (cfg : Config) {w : Word} (h : w &&& 0xF000 = 0xB000) :
    decode cfg w = .jpV0 (opNNN w) := by
  have hf : family w = 0xB#4 := family_of_match h
  rw [decode, hf, ← fieldNNN_eq_opNNN]; rfl

theorem exec_jpV0 (nnn : BitVec 12) (s : State) :
    exec (.jpV0 nnn) s = .next { s with pc := nnn.setWidth 16 + (s.getV 0).setWidth 16 } := rfl

/-- NNN plus a byte does not wrap at 16 bits (R108). -/
theorem toNat_setWidth_add (nnn : BitVec 12) (b : Byte) :
    (nnn.setWidth 16 + b.setWidth 16).toNat = nnn.toNat + b.toNat := by
  have := nnn.isLt
  have := b.isLt
  bv_omega

/-- Settles O18, by the sum without wrap and the fetch after it. -/
theorem jpVZeroAddsVZero : Obligations.JpVZeroAddsVZero := by
  refine ⟨fun cfg _ h => decode_jpV0_of_match cfg h, fun s nnn => ?target, fun s nnn hs hi hpc => ?far⟩
  case target =>
    have hsum := toNat_setWidth_add nnn (s.getV 0)
    have := nnn.isLt
    have := (s.getV 0).isLt
    exact ⟨_, exec_jpV0 nnn s, hsum, hsum ▸ by omega, rfl⟩
  case far =>
    have hsum := toNat_setWidth_add nnn (s.getV 0)
    rw [fault_ticks_two hs hi (exec_jpV0 nnn s) hs (by rw [hsum]; exact hpc)]
    exact ⟨rfl, hsum⟩

/-! ### Unknown opcodes (R79) -/

/-- Settles O20: the pc advance, and the end of a completed tick. -/
theorem unknownOpcodeOnlyAdvances : Obligations.UnknownOpcodeOnlyAdvances := by
  refine fun s w => ⟨exec_unknown w s, fun hs hi => ?_⟩
  rw [step_nextInstr hs hi (exec_unknown w s), endTick_eq_of_completed (by exact hs)]

end Sys2Proof.Machine
end

section
/-! SUPPORT. The timers (45_timer.md R220 to R223): what their instructions do before the countdown, and how a loaded timer runs
down. -/

namespace Sys2Proof.Machine

/-! ### The countdown (R223) -/

/-- The state after a tick has a fault if the state before it had one. -/
theorem fault_none_of_ticks_succ {k : Nat} {s : State} (h : (State.ticks (k + 1) s).fault.code = .none) :
    (State.ticks k s).fault.code = .none := by
  by_contra hk
  rw [State.ticks_succ_eq_tick, tick_halted hk] at h
  exact hk h

/-- A step that ends with a fault leaves the timers (R223, R243). -/
theorem step_faulted_timers {s u : State} (h : step s = .next u) (hu : u.fault.code ≠ .none) :
    u.dt = s.dt ∧ u.st = s.st := by
  by_cases hs : s.fault.code = .none
  · obtain ⟨r, -, rfl⟩ := step_faulted hs h hu
    exact ⟨rfl, rfl⟩
  · obtain rfl : s = u := Host.Outcome.next.inj (step_halted hs ▸ h)
    exact ⟨rfl, rfl⟩

/-- A timer register `rd` with the instruction `ld x` that loads it from VX. -/
structure IsTimer (rd : State → Byte) (ld : RegIx → Instr) : Prop where
  load : ∀ {x s t}, exec (ld x) s = .next t → rd t = s.getV x
  keep : ∀ {i s t}, (∀ x, i ≠ ld x) → exec i s = .next t → rd t = rd s
  count : ∀ t, rd (useInputs (timerCountdown t)) = countdown (rd t)

theorem isTimer_dt : IsTimer State.dt .ldDtVx :=
  ⟨by rintro x s t ⟨⟩; rfl, fun hi h => (exec_answers h).dt_eq hi, fun _ => rfl⟩

theorem isTimer_st : IsTimer State.st .ldStVx :=
  ⟨by rintro x s t ⟨⟩; rfl, fun hi h => (exec_answers h).st_eq hi, fun _ => rfl⟩

section
variable {rd : State → Byte} {ld : RegIx → Instr} (ht : IsTimer rd ld)
include ht

/-- A completed tick that loads the timer leaves it one below VX. -/
theorem IsTimer.tick_load {s : State} {x : RegIx} (hi : s.nextInstr = some (ld x)) (hu : s.tick.fault.code = .none) :
    (rd s.tick).toNat = (s.getV x).toNat - 1 := by
  have hs : s.fault.code = .none := fault_none_of_ticks_succ (k := 0) hu
  obtain ⟨i, t, hi', he, hu'⟩ := step_completed hs (step_eq_tick s) hu
  obtain rfl : ld x = i := Option.some.inj (hi ▸ hi')
  rw [hu', ht.count, countdown_toNat, ht.load he]

/-- A completed tick that does not load the timer takes one off it. -/
theorem IsTimer.tick_keep {s : State} (hi : ∀ x, s.nextInstr ≠ some (ld x)) (hu : s.tick.fault.code = .none) :
    (rd s.tick).toNat = (rd s).toNat - 1 := by
  have hs : s.fault.code = .none := fault_none_of_ticks_succ (k := 0) hu
  obtain ⟨i, t, hi', he, hu'⟩ := step_completed hs (step_eq_tick s) hu
  rw [hu', ht.count, countdown_toNat, ht.keep (fun x e => hi x (e ▸ hi')) he]

/-- A timer loaded with VX and not loaded again holds VX - 1 - j after j more ticks (R223). -/
theorem IsTimer.ticks_runDown {s : State} {x : RegIx} (hi : s.nextInstr = some (ld x)) : ∀ {j : Nat},
    (State.ticks (1 + j) s).fault.code = .none →
    (∀ m y, m < j → (State.ticks (1 + m) s).nextInstr ≠ some (ld y)) →
    (rd (State.ticks (1 + j) s)).toNat = (s.getV x).toNat - 1 - j := by
  intro j
  induction j with
  | zero => exact fun hf _ => ht.tick_load hi hf
  | succ j ih =>
    intro hf hm
    have hprev := ih (fault_none_of_ticks_succ hf) fun m y hlt => hm m y (hlt.trans (Nat.lt_succ_self j))
    rw [← Nat.add_assoc, State.ticks_succ_eq_tick] at hf ⊢
    rw [ht.tick_keep (fun y => hm j y (Nat.lt_succ_self j)) hf, hprev, Nat.sub_sub]

end

/-- Settles O10: a completed tick counts down what the instruction left, a faulted one does not, and a loaded timer runs
down. -/
theorem timersCountDownEachCompletedTick : Obligations.TimersCountDownEachCompletedTick := by
  refine ⟨fun s u hs h hu => ?_, fun s u h hu => step_faulted_timers h hu,
    fun s x j hi _ _ hf hm => isTimer_dt.ticks_runDown hi hf hm,
    fun s x j hi _ _ hf hm => isTimer_st.ticks_runDown hi hf hm⟩
  obtain ⟨i, t, hi, he, rfl⟩ := step_completed hs h hu
  exact ⟨i, t, hi, he, countdown_toNat t.dt, countdown_toNat t.st⟩

/-! ### The timer instructions (R220 to R222) -/

theorem exec_ldVxDt (x : RegIx) (s : State) : exec (.ldVxDt x) s = .next (s.advance.setV x s.dt) := rfl
theorem exec_ldDtVx (x : RegIx) (s : State) :
    exec (.ldDtVx x) s = .next { s with dt := s.getV x, pc := s.pc + 2 } := rfl
theorem exec_ldStVx (x : RegIx) (s : State) :
    exec (.ldStVx x) s = .next { s with st := s.getV x, pc := s.pc + 2 } := rfl

/-- Settles O38: each timer instruction acts before the countdown of its tick. -/
theorem timerRegistersMove : Obligations.TimerRegistersMove := by
  refine fun s x => ⟨⟨_, exec_ldVxDt x s, s.advance.getV_setV_same x s.dt, fun q hq => ?_, rfl⟩, exec_ldDtVx x s,
    exec_ldStVx x s, fun hs hi => ⟨_, step_nextInstr hs hi (exec_ldVxDt x s), ?_⟩,
    fun hs hi => ⟨_, step_nextInstr hs hi (exec_ldDtVx x s), ?_⟩,
    fun hs hi => ⟨_, step_nextInstr hs hi (exec_ldStVx x s), ?_⟩⟩
  · exact s.advance.getV_setV_other s.dt hq
  · rw [endTick_completed (by exact hs)]
    exact ⟨s.advance.getV_setV_same x s.dt, countdown_toNat s.dt⟩
  · rw [endTick_completed (by exact hs)]
    exact countdown_toNat (s.getV x)
  · rw [endTick_completed (by exact hs)]
    exact countdown_toNat (s.getV x)

end Sys2Proof.Machine
end

section
/-! SUPPORT. Arithmetic and logic (41_arithmetic.md R131 to R142): each meaning as a register write or a flag commit after
the pc advance, and each flag and result as an integer. -/

namespace Sys2Proof.Machine

/-! ### Writes of one register (R131 to R135, R141) -/

/-- What a write of V[x] after the pc advance leaves: the value in V[x], and every other register as it was. -/
theorem setV_advance_writes (s : State) (x : RegIx) (b : Byte) :
    (s.advance.setV x b).getV x = b ∧ (∀ q, q ≠ x → (s.advance.setV x b).getV q = s.getV q) ∧
      s.advance.setV x b = { s with v := (s.advance.setV x b).v, pc := s.pc + 2 } :=
  ⟨s.advance.getV_setV_same x b, fun _ hq => s.advance.getV_setV_other b hq, rfl⟩

theorem exec_addImm (x : RegIx) (nn : Byte) (s : State) :
    exec (.addImm x nn) s = .next (s.advance.setV x (s.getV x + nn)) := rfl
theorem exec_ldReg (x y : RegIx) (s : State) : exec (.ldReg x y) s = .next (s.advance.setV x (s.getV y)) := rfl
theorem exec_orReg (x y : RegIx) (s : State) :
    exec (.orReg x y) s = .next (s.advance.setV x (s.getV x ||| s.getV y)) := rfl
theorem exec_andReg (x y : RegIx) (s : State) :
    exec (.andReg x y) s = .next (s.advance.setV x (s.getV x &&& s.getV y)) := rfl
theorem exec_xorReg (x y : RegIx) (s : State) :
    exec (.xorReg x y) s = .next (s.advance.setV x (s.getV x ^^^ s.getV y)) := rfl

/-- Settles O22: each is a write of VX, whose value is the sum, the copy or the bitwise result. -/
theorem registerOpsWriteVxAlone : Obligations.RegisterOpsWriteVxAlone := by
  refine fun s x y nn => ⟨⟨_, exec_addImm x nn s, ?add⟩, ⟨_, exec_ldReg x y s, ?ld⟩, ⟨_, exec_orReg x y s, ?or⟩,
    ⟨_, exec_andReg x y s, ?and⟩, ⟨_, exec_xorReg x y s, ?xor⟩⟩
  case add =>
    obtain ⟨hval, hrest⟩ := setV_advance_writes s x (s.getV x + nn)
    exact ⟨by rw [hval, BitVec.toNat_add], hrest⟩
  case ld => exact setV_advance_writes s x (s.getV y)
  case or =>
    obtain ⟨hval, hrest⟩ := setV_advance_writes s x (s.getV x ||| s.getV y)
    exact ⟨fun k => by rw [hval, BitVec.getLsbD_or], hrest⟩
  case and =>
    obtain ⟨hval, hrest⟩ := setV_advance_writes s x (s.getV x &&& s.getV y)
    exact ⟨fun k => by rw [hval, BitVec.getLsbD_and], hrest⟩
  case xor =>
    obtain ⟨hval, hrest⟩ := setV_advance_writes s x (s.getV x ^^^ s.getV y)
    exact ⟨fun k => by rw [hval, BitVec.getLsbD_xor], hrest⟩

/-- Settles O25: the draw is the host's, or the free value where it hands none; no value of it is used. -/
theorem rndMasksTheDraw : Obligations.RndMasksTheDraw := by
  refine fun s x nn => ⟨fun hm => ?random, fun hm => ?noop⟩
  case random =>
    obtain ⟨hval, hrest⟩ := setV_advance_writes s x (s.rnd &&& nn)
    refine ⟨_, by rw [exec_rnd, hm], fun b hb => ?_, fun hb => ?_, hrest⟩
    · rw [hval, State.rnd, hb]; rfl
    · rw [hval, State.rnd, hb]; rfl
  case noop => rw [exec_rnd, hm]; rfl

/-! ### Flags and results as integers (R136 to R140) -/

theorem addFlag_toNat (a b : Byte) : (flagByte (addFlag a b)).toNat = if a.toNat + b.toNat > 255 then 1 else 0 := by
  simp only [flagByte_toNat, addFlag, decide_eq_true_eq]

theorem addResult_toNat (a b : Byte) : (addResult a b).toNat = (a.toNat + b.toNat) % 256 := BitVec.toNat_add ..

theorem subFlag_toNat (a b : Byte) : (flagByte (subFlag a b)).toNat = if b.toNat > a.toNat then 0 else 1 := by
  by_cases h : b.toNat > a.toNat <;> simp [subFlag, flagByte, h]

theorem subResult_toNat (a b : Byte) : (subResult a b).toNat = (a.toNat + 256 - b.toNat) % 256 := by
  have := b.isLt
  rw [subResult, BitVec.toNat_sub]
  omega

theorem subnFlag_toNat (eqVf : Bool) (a b : Byte) : (flagByte (subnFlag eqVf a b)).toNat =
    if b.toNat > a.toNat then 1 else if a.toNat = b.toNat then (if eqVf then 1 else 0) else 0 := by
  rw [flagByte_toNat, subnFlag]
  by_cases hgt : b.toNat > a.toNat
  · simp only [if_pos hgt, if_true]
  · by_cases heq : a = b
    · simp only [heq, gt_iff_lt, lt_self_iff_false, if_false, if_true]
    · simp [hgt, heq, BitVec.toNat_inj]

theorem subnResult_toNat (a b : Byte) : (subnResult a b).toNat = (b.toNat + 256 - a.toNat) % 256 :=
  subResult_toNat b a

/-- Settles O23, by each flag and result as an integer. -/
theorem addSubWriteFlagAndResult : Obligations.AddSubWriteFlagAndResult := by
  refine fun x y => ⟨?add, ?sub, ?subn⟩
  case add =>
    exact commitsFlag_of_exec (F := fun _ => addFlag) (fun _ => rfl) (fun _ => addFlag_toNat) addResult_toNat
  case sub =>
    exact commitsFlag_of_exec (F := fun _ => subFlag) (fun _ => rfl) (fun _ => subFlag_toNat) subResult_toNat
  case subn =>
    exact commitsFlag_of_exec (F := fun cfg => subnFlag cfg.subnEqVf) (fun _ => rfl)
      (fun cfg => subnFlag_toNat cfg.subnEqVf) subnResult_toNat

theorem shrFlag_toNat (a : Byte) : (flagByte (shrFlag a)).toNat = a.toNat % 2 := by
  rw [flagByte_toNat, shrFlag, BitVec.getLsbD, Nat.testBit_zero]
  rcases Nat.mod_two_eq_zero_or_one a.toNat with h | h <;> simp [h]

theorem shrResult_toNat (a : Byte) : (shrResult a).toNat = a.toNat / 2 := by
  rw [shrResult, BitVec.toNat_ushiftRight, Nat.shiftRight_eq_div_pow, pow_one]

theorem shlFlag_toNat (a : Byte) : (flagByte (shlFlag a)).toNat = a.toNat / 128 := by
  have hbit : shlFlag a = decide (a.toNat / 2 ^ 7 % 2 = 1) := Nat.testBit_eq_decide_div_mod_eq
  have := a.isLt
  rw [flagByte_toNat, hbit]
  simp only [decide_eq_true_eq]
  split <;> omega

theorem shlResult_toNat (a : Byte) : (shlResult a).toNat = 2 * a.toNat % 256 := by
  rw [shlResult, BitVec.toNat_shiftLeft, Nat.shiftLeft_eq, pow_one, Nat.mul_comm]

/-- Settles O24, by the bit shifted out as a remainder or a quotient. -/
theorem shiftsWriteBitShiftedOut : Obligations.ShiftsWriteBitShiftedOut := by
  refine fun x => ⟨?shr, ?shl⟩
  case shr =>
    exact commitsFlag_of_exec (F := fun _ a _ => shrFlag a) (R := fun a _ => shrResult a) (fun _ => rfl)
      (fun _ a _ => shrFlag_toNat a) (fun a _ => shrResult_toNat a)
  case shl =>
    exact commitsFlag_of_exec (F := fun _ a _ => shlFlag a) (R := fun a _ => shlResult a) (fun _ => rfl)
      (fun _ a _ => shlFlag_toNat a) (fun a _ => shlResult_toNat a)

end Sys2Proof.Machine
end

section
/-! SUPPORT. Memory accesses, index arithmetic and register blocks (20_memory.md R50, 42_memory_index.md R161 to R165, and
R275's store over the next opcode). -/

namespace Sys2Proof.Machine

/-! ### Checked accesses (R50) -/

/-- Settles O26, by the two sides of the range check and what a read gives after a write. -/
theorem memoryAccessIsChecked : Obligations.MemoryAccessIsChecked := by
  refine ⟨fun s a b hs => ⟨fun ha => ⟨memRead_inRange ha, ?inRange⟩,
    fun ha => ⟨memRead_outOfRange ha, memWrite_outOfRange b ha⟩⟩,
    fun s h r hr => runHandler_error hr, fun s hpc => fetch_outOfRange hpc⟩
  case inRange =>
    have hread := fun c => State.byteAt_setByte hs a c b
    refine ⟨_, memWrite_inRange b ha, ?_, State.setByte_memWf hs (Nat.lt_succ_of_le ha) b, fun c hc => ?_, rfl⟩
    · rw [memRead_inRange ha, hread, if_pos rfl]
    · rw [hread, if_neg hc]

/-! ### Index arithmetic (R161, R162) -/

theorem exec_addI (x : RegIx) (s : State) :
    exec (.addI x) s = .next { s.advance with i := s.i + (s.getV x).setWidth 16 } := rfl
theorem exec_ldF (x : RegIx) (s : State) :
    exec (.ldF x) s = .next { s.advance with i := glyphAddr s.cfg (s.getV x) } := rfl

/-- Settles O28: the sum of two words wraps, and a glyph is five bytes of the font's eighty. -/
theorem indexArithmetic : Obligations.IndexArithmetic := by
  refine fun s x => ⟨⟨_, exec_addI x s, ?sum, rfl⟩, ⟨_, exec_ldF x s, ?glyph⟩⟩
  case sum => exact (BitVec.toNat_add ..).trans (by rw [BitVec.toNat_setWidth_of_le (by decide)])
  case glyph =>
    have hglyph := glyphAddr_toNat s.cfg (s.getV x)
    have hbase := s.cfg.fontBase.isLt
    refine ⟨hglyph, ?_, ?_, ?_, rfl⟩ <;> dsimp only <;> omega

/-! ### Register blocks (R164, R165) -/

/-- LD [I], VX with its block in range. -/
theorem exec_storeRegs_inRange {x : RegIx} {s : State} (hr : s.indexAddr + x.val ≤ 0xFFF) :
    exec (.storeRegs x) s = .next (s.advance.setBytes s.indexAddr (s.regsTo x)) := by
  have hm : s.indexAddr + (x.val + 1) ≤ memSize := Nat.succ_le_succ hr
  rw [exec_storeRegs, if_pos hm]

/-- The byte at offset k of the block that LD [I], VX stores is Vk. -/
theorem byteAt_storeRegs {x k : RegIx} {s : State} (hs : s.memWf) (hr : s.indexAddr + x.val ≤ 0xFFF) (hk : k ≤ x) :
    (s.advance.setBytes s.indexAddr (s.regsTo x)).byteAt (s.indexAddr + k.val) = s.getV k := by
  have hm : s.indexAddr + (s.regsTo x).length ≤ memSize := by rw [s.regsTo_length]; exact Nat.succ_le_succ hr
  have hlt : k.val < (s.regsTo x).length := by rw [s.regsTo_length]; exact Nat.lt_succ_of_le hk
  rw [State.byteAt_setBytes_offset (s := s.advance) hs hm hlt, s.regsTo_getElem]; rfl

/-- Settles O30, by the two cases of LD [I], VX. -/
theorem storeRegsDumpsBlock : Obligations.StoreRegsDumpsBlock := by
  refine fun s x => ⟨fun hs hr => ?stored, fun hr => ?fault⟩
  case stored =>
    refine ⟨_, exec_storeRegs_inRange hr, fun k hk => byteAt_storeRegs hs hr hk, fun a ha => ?_,
      State.setBytes_eq _ _ _⟩
    exact exec_store_byteAt_outside rfl hs (exec_storeRegs_inRange hr) (by rwa [State.regsTo_length])
  case fault =>
    have hm : ¬ s.indexAddr + (x.val + 1) ≤ memSize := Nat.not_le.mpr (Nat.succ_lt_succ hr)
    rw [exec_storeRegs, if_neg hm]; rfl

/-- LD VX, [I] with its block in range. -/
theorem exec_loadRegs_inRange {x : RegIx} {s : State} (hr : s.indexAddr + x.val ≤ 0xFFF) :
    exec (.loadRegs x) s = .next (s.advance.setRegsFrom 0 (s.bytesAt s.indexAddr (x.val + 1))) := by
  have hm : s.indexAddr + (x.val + 1) ≤ memSize := Nat.succ_le_succ hr
  rw [exec_loadRegs, if_pos hm]

/-- What each register holds after V0..VX are loaded from memory. -/
theorem getV_setRegsFrom_bytesAt (s : State) (a : Nat) (x k : RegIx) :
    (s.advance.setRegsFrom 0 (s.bytesAt a (x.val + 1))).getV k =
      if k ≤ x then s.byteAt (a + k.val) else s.getV k := by
  rw [State.getV_setRegsFrom, s.bytesAt_length]
  by_cases hk : k ≤ x
  · have hin : 0 ≤ k.val ∧ k.val < 0 + (x.val + 1) := ⟨Nat.zero_le _, by have : k.val ≤ x.val := hk; omega⟩
    have hlt : k.val < (s.bytesAt a (x.val + 1)).length := by rw [s.bytesAt_length]; omega
    rw [if_pos hin, if_pos hk, Nat.sub_zero, List.getD_eq_getElem _ _ hlt, s.bytesAt_getElem]
  · have hout : ¬ (0 ≤ k.val ∧ k.val < 0 + (x.val + 1)) := by have : x.val < k.val := Nat.lt_of_not_le hk; omega
    rw [if_neg hout, if_neg hk, State.advance_getV]

/-- Settles O31, by the two cases of LD VX, [I]. -/
theorem loadRegsLoadsBlock : Obligations.LoadRegsLoadsBlock := by
  refine fun s x => ⟨fun hr => ⟨_, exec_loadRegs_inRange hr, fun k hk => ?_, fun k hk => ?_,
    State.setRegsFrom_eq _ _ _⟩, fun hr => ?fault⟩
  · rw [getV_setRegsFrom_bytesAt, if_pos hk]
  · rw [getV_setRegsFrom_bytesAt, if_neg (not_le.mpr hk)]
  case fault =>
    have hm : ¬ s.indexAddr + (x.val + 1) ≤ memSize := Nat.not_le.mpr (Nat.succ_lt_succ hr)
    rw [exec_loadRegs, if_neg hm]; rfl

/-- Settles O32: the two bytes at the next pc are the two registers stored there. -/
theorem storedBytesAreFetchedNext : Obligations.StoredBytesAreFetchedNext := by
  intro s t x j k hs h hr hpc hk hjk hij
  rw [exec_storeRegs_inRange hr] at h
  cases h
  have hnext : (s.pc + 2).toNat = s.indexAddr + j.val := by rw [← hij]; bv_omega
  have hhi := byteAt_storeRegs hs hr (k := j) ((Fin.le_def.mpr (by omega)).trans hk)
  have hlo := byteAt_storeRegs hs hr hk
  rw [State.nextInstr_inRange (by rw [State.setBytes_pc, State.advance_pc]; omega), ofNat_eq_wordOfBytes]
  rw [State.setBytes_pc, State.advance_pc, hnext, hhi, Nat.add_assoc, hjk, hlo, State.setBytes_cfg, State.advance_cfg]

end Sys2Proof.Machine
end

section
/-! SUPPORT. The sprite draw (43_draw.md R180 to R186) in the claims' terms: which pixels a sprite toggles, what VF says,
and what a draw depends on. -/

namespace Sys2Proof.Machine

/-! ### A sprite in range -/

/-- The canvas after `drw x y n` has drawn its rows on the state's framebuffer. -/
def State.sprite (s : State) (x y : RegIx) (n : BitVec 4) : Canvas := s.drawn x y (s.bytesAt s.indexAddr n.toNat)

/-- The rows of a sprite are all in memory (R180). -/
def State.rowsInRange (s : State) (n : BitVec 4) : Prop := n = 0 ∨ s.indexAddr + n.toNat ≤ 0x1000

/-- The state after a draw in range. -/
def State.afterDraw (s : State) (x y : RegIx) (n : BitVec 4) : State :=
  { s.advance with fb := (s.sprite x y n).fb }.setV vf (flagByte (s.sprite x y n).hit)

theorem State.afterDraw_fb (s : State) (x y : RegIx) (n : BitVec 4) : (s.afterDraw x y n).fb = (s.sprite x y n).fb := rfl

theorem State.afterDraw_getV_vf (s : State) (x y : RegIx) (n : BitVec 4) :
    (s.afterDraw x y n).getV vf = flagByte (s.sprite x y n).hit := State.getV_setV_same _ _ _

theorem State.afterDraw_getV_other (s : State) (x y : RegIx) (n : BitVec 4) {q : RegIx} (hq : q ≠ vf) :
    (s.afterDraw x y n).getV q = s.getV q := State.getV_setV_other _ _ hq

theorem exec_drw_inRange {x y : RegIx} {n : BitVec 4} {s : State} (hr : s.rowsInRange n) :
    exec (.drw x y n) s = .next (s.afterDraw x y n) := by
  have hm : n.toNat = 0 ∨ s.indexAddr + n.toNat ≤ memSize := hr.imp_left fun h => by rw [h]; rfl
  rw [exec_drw, if_pos hm]; rfl

theorem exec_drw_outOfRange {x y : RegIx} {n : BitVec 4} {s : State} (hr : ¬ s.rowsInRange n) :
    exec (.drw x y n) s = .next (raiseFault s ⟨.memOutOfRange, BitVec.ofNat 16 (max s.indexAddr 0x1000)⟩) := by
  have hm : ¬ (n.toNat = 0 ∨ s.indexAddr + n.toNat ≤ memSize) :=
    fun h => hr (h.imp_left fun h0 => BitVec.eq_of_toNat_eq h0)
  rw [exec_drw, if_neg hm]; rfl

/-- A pixel after the draw: toggled if a set bit lands on it, kept otherwise. -/
theorem State.sprite_get (s : State) (x y : RegIx) (n : BitVec 4) (px : Fin 64) (py : Fin 32) :
    (s.covers x y n px py → (s.sprite x y n).fb.get px py = !(s.fb.get px py)) ∧
    (¬ s.covers x y n px py → (s.sprite x y n).fb.get px py = s.fb.get px py) := by
  have hlen : (s.bytesAt s.indexAddr n.toNat).length ≤ 32 := by
    rw [s.bytesAt_length]; exact n.isLt.le.trans (by decide)
  have hget := (drawRows_spec s.cfg.drawEdge (originX (s.getV x)) (originY (s.getV y)) hlen s.fb).1 px py
  rw [State.covers_iff]
  exact ⟨fun h => hget.trans (if_pos h), fun h => hget.trans (if_neg h)⟩

/-- The collision flag: a set bit lands on a lit pixel. -/
theorem State.sprite_hit (s : State) (x y : RegIx) (n : BitVec 4) :
    (s.sprite x y n).hit = true ↔ ∃ px py, s.covers x y n px py ∧ s.fb.get px py = true := by
  have hlen : (s.bytesAt s.indexAddr n.toNat).length ≤ 32 := by
    rw [s.bytesAt_length]; exact n.isLt.le.trans (by decide)
  have hhit := (drawRows_spec s.cfg.drawEdge (originX (s.getV x)) (originY (s.getV y)) hlen s.fb).2
  simp only [State.covers_iff]
  exact hhit.trans Prod.exists

theorem flagByte_eq_one_iff {c : Bool} : flagByte c = 1 ↔ c = true := by cases c <;> decide
theorem flagByte_eq_zero_or_one (c : Bool) : flagByte c = 0 ∨ flagByte c = 1 := by cases c <;> decide
theorem flagByte_eq_zero_iff {c : Bool} : flagByte c = 0 ↔ ¬ c = true := by cases c <;> decide

/-- Settles O33, by the pixels and the flag of a sprite in range. -/
theorem drwTogglesCoveredPixels : Obligations.DrwTogglesCoveredPixels := by
  intro s x y n hr
  refine ⟨_, exec_drw_inRange hr, fun px py => (s.sprite_get x y n px py).1, fun px py => (s.sprite_get x y n px py).2,
    fun hlit => ?lit, fun hlit => ?unlit, fun q hq => ?others, rfl⟩
  case lit => rw [State.afterDraw_getV_vf, flagByte_eq_one_iff, State.sprite_hit]; exact hlit
  case unlit => rw [State.afterDraw_getV_vf, flagByte_eq_zero_iff, State.sprite_hit]; exact hlit
  case others => exact s.afterDraw_getV_other x y n hq

/-- Settles O34: with a row, and its last address out of range, the draw raises. -/
theorem drwOutOfRangeFaults : Obligations.DrwOutOfRangeFaults :=
  fun _ _ _ _ hn hr => exec_drw_outOfRange fun h => h.elim hn (Nat.not_le.mpr hr)

/-! ### The origin (R181) -/

/-- The pixel at the origin is covered exactly when the sprite's first bit, bit 7 of its first row, is set. -/
theorem State.covers_origin_iff {s : State} {x y : RegIx} {n : BitVec 4} {px : Fin 64} {py : Fin 32}
    (hx : px.val = (s.getV x).toNat % 64) (hy : py.val = (s.getV y).toNat % 32) (hn : n ≠ 0) :
    s.covers x y n px py ↔ (s.byteAt s.indexAddr).getLsbD 7 = true := by
  have hpos : 0 < n.toNat := Nat.pos_of_ne_zero fun h => hn (BitVec.eq_of_toNat_eq h)
  constructor
  · rintro ⟨r, c, hr, hc, hbit, hland⟩
    have hn16 := n.isLt
    obtain ⟨rfl, rfl⟩ : r = 0 ∧ c = 0 := by
      cases he : s.cfg.drawEdge with
      | clip => rw [he] at hland; obtain ⟨hcol, hrow⟩ := hland; omega
      | wrap => rw [he] at hland; obtain ⟨hcol, hrow⟩ := hland; omega
    exact hbit
  · intro hbit
    refine ⟨0, 0, hpos, by decide, hbit, ?_⟩
    cases s.cfg.drawEdge <;> constructor <;> omega

/-- The bytes of a block depend on memory and the parameters alone. -/
theorem State.bytesAt_congr {s t : State} (hm : t.mem = s.mem) (hc : t.cfg = s.cfg) (a n : Nat) :
    t.bytesAt a n = s.bytesAt a n := by
  refine List.ext_getElem (by simp) fun k _ _ => ?_
  rw [State.bytesAt_getElem, State.bytesAt_getElem, State.byteAt, State.byteAt, hm, hc]

/-- A draw depends on VX and VY through the origin alone. -/
theorem State.sprite_congr {s t : State} {x y : RegIx} {n : BitVec 4} (ht : t = { s with v := t.v })
    (hx : (t.getV x).toNat % 64 = (s.getV x).toNat % 64) (hy : (t.getV y).toNat % 32 = (s.getV y).toNat % 32) :
    t.sprite x y n = s.sprite x y n := by
  have hi : t.indexAddr = s.indexAddr := (congrArg State.indexAddr ht :)
  have hc : t.cfg = s.cfg := (congrArg State.cfg ht :)
  have hm : t.mem = s.mem := (congrArg State.mem ht :)
  have hfb : t.fb = s.fb := (congrArg State.fb ht :)
  simp only [State.sprite, State.drawn, originX, originY, State.bytesAt_congr hm hc, hi, hc, hfb, hx, hy]

/-- Settles O35, by the cover of the origin and what a sprite depends on. -/
theorem drwOriginWrapsOnEntry : Obligations.DrwOriginWrapsOnEntry := by
  refine fun s x y n px py => ⟨fun hx hy hn hr => ⟨_, exec_drw_inRange (.inr hr), ?origin⟩, fun s' hs' hx hy => ?same⟩
  case origin =>
    have hcover := State.covers_origin_iff hx hy hn
    obtain ⟨hon, hoff⟩ := s.sprite_get x y n px py
    cases hbit : (s.byteAt s.indexAddr).getLsbD 7 with
    | true => rw [Bool.xor_true]; exact hon (hcover.mpr hbit)
    | false => rw [Bool.xor_false]; exact hoff fun h => by rw [hcover, hbit] at h; cases h
  case same =>
    have hsprite := State.sprite_congr (n := n) hs' hx hy
    have hi : s'.indexAddr = s.indexAddr := (congrArg State.indexAddr hs' :)
    have hpc : s'.pc = s.pc := (congrArg State.pc hs' :)
    have hfb : s'.fb = s.fb := (congrArg State.fb hs' :)
    have hfault : s'.fault = s.fault := (congrArg State.fault hs' :)
    have hiff : s'.rowsInRange n ↔ s.rowsInRange n := by rw [State.rowsInRange, State.rowsInRange, hi]
    by_cases hr : s.rowsInRange n
    · refine ⟨_, _, exec_drw_inRange hr, exec_drw_inRange (hiff.mpr hr), congrArg Canvas.fb hsprite, hfault, fun _ => ?_⟩
      rw [State.afterDraw_getV_vf, State.afterDraw_getV_vf, hsprite]
    · refine ⟨_, _, exec_drw_outOfRange hr, exec_drw_outOfRange (mt hiff.mp hr), hfb, ?_, fun h => absurd h hr⟩
      rw [raiseFault_fault, raiseFault_fault, hpc, hi]

/-! ### The double draw (R186) -/

/-- Which pixels a sprite covers depends on memory, the parameters, I and the two registers alone. -/
theorem State.covers_congr {s t : State} {x y : RegIx} {n : BitVec 4} (hm : t.mem = s.mem) (hc : t.cfg = s.cfg)
    (hi : t.i = s.i) (hx : t.getV x = s.getV x) (hy : t.getV y = s.getV y) (px : Fin 64) (py : Fin 32) :
    t.covers x y n px py ↔ s.covers x y n px py := by
  simp only [State.covers, State.byteAt, State.indexAddr, hm, hc, hi, hx, hy]

/-- A draw whose X and Y are not VF leaves what the same sprite covers. -/
theorem State.covers_afterDraw (s : State) {x y : RegIx} (n : BitVec 4) (hx : x ≠ vf) (hy : y ≠ vf) (px : Fin 64)
    (py : Fin 32) : (s.afterDraw x y n).covers x y n px py ↔ s.covers x y n px py :=
  State.covers_congr (s := s) (t := s.afterDraw x y n) rfl rfl rfl (s.afterDraw_getV_other x y n hx)
    (s.afterDraw_getV_other x y n hy) px py

/-- Settles O36: the second draw covers the same pixels, and so toggles each of them back. -/
theorem doubleDrawRestoresFramebuffer : Obligations.DoubleDrawRestoresFramebuffer := by
  intro s x y n hx hy hr
  have hcov := s.covers_afterDraw n hx hy
  refine ⟨_, _, exec_drw_inRange hr, exec_drw_inRange hr, Framebuffer.ext_get fun px py => ?fb, ?vf, ?flag⟩
  case fb =>
    obtain ⟨hon, hoff⟩ := s.sprite_get x y n px py
    obtain ⟨hon', hoff'⟩ := (s.afterDraw x y n).sprite_get x y n px py
    rw [hcov, State.afterDraw_fb] at hon' hoff'
    by_cases hc : s.covers x y n px py
    · rw [State.afterDraw_fb, hon' hc, hon hc, Bool.not_not]
    · rw [State.afterDraw_fb, hoff' hc, hoff hc]
  case vf =>
    rw [State.afterDraw_getV_vf, flagByte_eq_one_iff, State.sprite_hit]
    refine exists_congr fun px => exists_congr fun py => ?_
    rw [hcov px py]
    refine and_congr_right fun hc => ?_
    rw [State.afterDraw_fb, (s.sprite_get x y n px py).1 hc, Bool.not_eq_true']
  case flag =>
    rw [State.afterDraw_getV_vf]
    exact flagByte_eq_zero_or_one _

end Sys2Proof.Machine
end

section
/-! SUPPORT. The keypad instructions (44_input.md R202, R203), reset and load (10_state.md R36, 70_reset_and_hazards.md R270,
R273). -/

namespace Sys2Proof.Machine

/-! ### The keypad -/

/-- Settles O13: a value above 15 is no key index. -/
theorem keyIndexAboveFifteenFaults : Obligations.KeyIndexAboveFifteenFaults := by
  intro s x hx
  have hlt : ¬ (s.getV x).toNat < 16 := Nat.not_lt.mpr hx
  rw [exec_skp, exec_sknp, dif_neg hlt, dif_neg hlt, BitVec.ofNat_toNat]
  exact ⟨rfl, rfl⟩

/-- Settles O37, by what the key scan finds: a pressed key, the first in its order, or none. -/
theorem ldKWaitsForKey : Obligations.LdKWaitsForKey := by
  refine fun s x => ⟨fun hk => ?pressed, fun hk => ?none⟩
  case none => rw [exec_ldVxK, s.scanKeys_none.mpr hk]
  case pressed =>
    obtain ⟨k, hscan⟩ := Option.ne_none_iff_exists'.mp (mt s.scanKeys_none.mp hk)
    obtain ⟨hval, hrest⟩ := setV_advance_writes s x (BitVec.ofNat 8 k.val)
    refine ⟨_, k, by rw [exec_ldVxK, hscan], ?_, State.scanKeys_pressed hscan,
      fun ho => State.scanKeys_lowest ho hscan, fun ho => State.scanKeys_highest ho hscan, hrest⟩
    rw [hval, BitVec.toNat_ofNat]
    exact Nat.mod_eq_of_lt (k.isLt.trans (by decide))

/-! ### Reset (R36, R270) -/

/-- What an address of the font region reads as at reset. -/
theorem resetByte_font (cfg : Config) (k : Fin 80) : resetByte cfg (cfg.fontBase.val + k.val) = cfg.fontData[k] := by
  rw [resetByte, if_pos (Nat.le_add_right _ _), Nat.add_sub_cancel_left, List.getD_eq_getElem _ _ (by simp)]
  exact Vector.getElem_toList _

/-- What an address outside the font region reads as at reset. -/
theorem resetByte_outside (cfg : Config) {a : Nat} (ha : a < cfg.fontBase.val ∨ cfg.fontBase.val + 80 ≤ a) :
    resetByte cfg a = 0 := by
  by_cases hle : cfg.fontBase.val ≤ a
  · have hlen : cfg.fontData.toList.length ≤ a - cfg.fontBase.val := by simp only [Vector.length_toList]; omega
    rw [resetByte, if_pos hle, List.getD_eq_default _ _ hlen]
  · rw [resetByte, if_neg hle]

/-- Both resets are reset under some parameters, up to the count of draws. -/
theorem eq_resetWith {u : State} (hu : u = State.reset ∨ ∃ s, u = hostReset s) :
    ∃ cfg d, u = { State.resetWith cfg with draws := d } := by
  rcases hu with rfl | ⟨s, rfl⟩
  · exact ⟨defaultConfig, 0, rfl⟩
  · exact ⟨s.cfg, s.draws, rfl⟩

/-- Settles O49, by the fields of the reset state and the two parts of its memory. -/
theorem resetSetsEveryPiece : Obligations.ResetSetsEveryPiece := by
  intro u hu
  obtain ⟨cfg, d, rfl⟩ := eq_resetWith hu
  refine ⟨fun r => ?v, rfl, rfl, fun k => ?stack, rfl, rfl, rfl, resetByte_font cfg, fun a ha => resetByte_outside cfg ha,
    blankFrame_get, rfl, rfl, rfl, rfl, rfl⟩
  case v => simp [State.getV]
  case stack => simp

/-- Reset under any parameters, with any count of draws, meets the three invariants. -/
theorem resetWith_invariants (cfg : Config) (d : Nat) :
    State.memWf { State.resetWith cfg with draws := d } ∧
    State.faultConsistent { State.resetWith cfg with draws := d } ∧
    State.pcBounded { State.resetWith cfg with draws := d } :=
  ⟨rfl, ⟨rfl, rfl⟩, (by decide : 0x200 ≤ 0x10FE), fun k => by simp⟩

/-- Settles O48, by the invariants of reset under any parameters. -/
theorem resetSatisfiesInvariants : Obligations.ResetSatisfiesInvariants :=
  ⟨fun cfg => resetWith_invariants cfg 0, fun s => resetWith_invariants s.cfg s.draws⟩

/-- Settles O50, by running the reset state's fields and bytes. -/
theorem resetTakesDefaultParameters : Obligations.ResetTakesDefaultParameters := by
  unfold Obligations.ResetTakesDefaultParameters
  decide

/-! ### Load (R273) -/

/-- A load that is admitted and fits copies the bytes to 0x200 on. -/
theorem hostLoad_ok {s : State} {rom : List Byte} (hl : s.loaded = false) (ht : s.ticked = false)
    (hlen : rom.length ≤ progMax) : hostLoad rom s = (.ok, { s.setBytes progBase rom with loaded := true }) := by
  rw [hostLoad, hl, ht, if_neg (by decide), if_neg (Nat.not_lt.mpr hlen), State.copyIn_eq_setBytes]

/-- Settles O51, by the three cases of load and the block of bytes it copies. -/
theorem loadCopiesRomOnce : Obligations.LoadCopiesRomOnce := by
  refine fun s rom => ⟨fun h => ?notAdmitted, fun hl ht hlen => ?tooLong, fun hl ht hlen hs => ?ok⟩
  case notAdmitted => rw [hostLoad, if_pos (by rwa [Bool.or_eq_true])]
  case tooLong =>
    have hlong : rom.length > progMax := hlen
    rw [hostLoad, hl, ht, if_neg (by decide), if_pos hlong]
  case ok =>
    have hr : progBase + rom.length ≤ memSize := Nat.add_le_add_left hlen progBase
    refine ⟨_, hostLoad_ok hl ht hlen, fun k hk => State.byteAt_setBytes_offset hs hr hk, fun a ha => ?outside,
      State.setBytes_memWf rom hs hr, ?frame⟩
    case outside =>
      have hout : ¬ (progBase ≤ a ∧ a < progBase + rom.length) := by rw [progBase]; omega
      exact (State.byteAt_setBytes rom a hs hr).trans (if_neg hout)
    case frame => rw [State.setBytes_eq]

end Sys2Proof.Machine
end
